-- ==== Sys2Proof/Word.lean ====
section
/-! DEFINITION. The bit vectors of the machine (spec/00_scope.md rules R5 and R7): nothing here is a choice of the model's. -/

namespace Sys2Proof

/-- A value: what the accumulator, a data cell and an item on a channel hold. XLEN = 32 bits, two's complement (R5, R11). -/
abbrev Value := BitVec 32

/-- The operand field of a word: OPERAND_BITS = 16 bits, read unsigned (R5, R40, R41). -/
abbrev Operand := BitVec 16

/-- One instruction word, the binary form of the pair (opcode, operand): WORD_BITS = 24 (R5, R41). -/
abbrev InstrWord := BitVec 24

/-- The program counter: PC_BITS = 17 bits, unsigned (R5, R12). -/
abbrev ProgramCounter := BitVec 17

/-- MIN, the least representable value (R5). -/
def minValue : Int := -2147483648

/-- MAX, the greatest representable value (R5). -/
def maxValue : Int := 2147483647

end Sys2Proof
end

