-- ==== Sys2Proof/Config.lean ====
section
/-! DEFINITION. What an implementation fixes and what the spec leaves open (spec/00_scope.md rule R5). -/

namespace Sys2Proof

/-- The two OPEN parameters of R5. "every rule holds for every legal value of it": they are data that every state
carries and no step writes, so that a statement about every state is a statement about every value of them (log 1). -/
structure Params where
  /-- CAP, the number of cells in each plane of memory (R5, R16). -/
  cap : Nat
  /-- DEFAULT_CELL, what every data cell holds when a run begins (R5, R18). -/
  defaultCell : Value
deriving DecidableEq, Repr

/-- The legal capacities: "1 <= CAP <= 65536" (R5). -/
abbrev Params.Legal (p : Params) : Prop := 1 ≤ p.cap ∧ p.cap ≤ 65536

/-- The instantiation the spec's test vectors use, CAP = 100 and DEFAULT_CELL = 0 (R5). DESIGN CHOICE (log 1): the
parameters of `State.reset`; no statement rests on these numbers. -/
def Params.vectors : Params := { cap := 100, defaultCell := 0#32 }

/-- ADDR_DIGITS: the most digits of an operand literal in the text form, for every opcode but SET (R5, R54). -/
def Config.addrDigits : Nat := 2

/-- IMM_DIGITS: the most digits of SET's literal in the text form (R5, R54). -/
def Config.immDigits : Nat := 4

/-- FREE VALUE (log 4). What an instruction cell holds that the loader has not written: "unspecified contents; no rule
ever reads them" (spec/10_state.md rule R17, spec/93_implementation_defined.md U6, "any value"). It has no body, so
nothing can be proved of what it is. -/
opaque Config.unspecifiedWord : Nat → InstrWord

end Sys2Proof
end

