-- ==== Sys2Proof/Syntax.lean ====
section
/-! DEFINITION. The instruction set, whole: one constructor per row of spec/opcode_table.json (spec/30_encoding.md
rule R44). Every operand is the word's 16-bit field; there is no register, mode or function field (R40). -/

namespace Sys2Proof

/-- The 15 instructions of R44, in the table's order. -/
inductive Instr where
  /-- READ a: one input value into a data cell (R75). -/
  | read (a : Operand)
  /-- WRIT a: a data cell to the output, tag RAW (R76). -/
  | writ (a : Operand)
  /-- PRNT a: a data cell to the output, tag DISPLAY (R77). -/
  | prnt (a : Operand)
  /-- LOAD a: the accumulator from a data cell (R80). -/
  | load (a : Operand)
  /-- STOR a: the accumulator into a data cell (R81). -/
  | stor (a : Operand)
  /-- SET k: the accumulator from the operand itself (R82). -/
  | set (k : Operand)
  /-- ADD a (R87). -/
  | add (a : Operand)
  /-- SUB a (R88). -/
  | sub (a : Operand)
  /-- DIV a (R89). -/
  | div (a : Operand)
  /-- MULT a (R90). -/
  | mult (a : Operand)
  /-- MOD a (R91). -/
  | mod (a : Operand)
  /-- BRAN t: branch always (R96). -/
  | bran (t : Operand)
  /-- BRNG t: branch if the accumulator is negative (R97). -/
  | brng (t : Operand)
  /-- BRZR t: branch if the accumulator is zero (R98). -/
  | brzr (t : Operand)
  /-- HALT: its operand is ignored (R99); it is kept so that encoding gives the word back (log 13). -/
  | halt (x : Operand)
deriving DecidableEq, Repr

end Sys2Proof
end

