-- ==== Sys2Proof/WellFormed.lean ====
section
/-! DEFINITION. The checks on words and instructions (spec/30_encoding.md rules R42, R44 to R46, R54).
In the binary form every operand value is well-formed ("every one of the 65536 operand values is then a well-formed
instruction", R45), and the type `Operand` holds exactly those, so no check of the operand is left to make there. -/

namespace Sys2Proof

/-- The decimal codes of the 15 instructions (R44). -/
def legalOpcodes : List Nat := [10, 11, 12, 20, 21, 22, 30, 31, 32, 33, 34, 40, 41, 42, 99]

/-- A word is legal when its opcode byte, bits 23:16, is one of the 15 (R45, R46). -/
def legalWord (w : InstrWord) : Bool := legalOpcodes.contains (w.extractLsb' 16 8).toNat

/-- The greatest number a text literal of `n` decimal digits spells. -/
def greatestLiteral (n : Nat) : Nat := 10 ^ n - 1

/-- An instruction the text form can spell: its operand has at most ADDR_DIGITS digits, IMM_DIGITS for SET (R42, R54).
The engine executes the others too (R48). -/
def spellable : Instr → Bool
  | .read a | .writ a | .prnt a | .load a | .stor a | .add a | .sub a | .div a | .mult a | .mod a
  | .bran a | .brng a | .brzr a | .halt a => decide (a.toNat ≤ greatestLiteral Config.addrDigits)
  | .set k => decide (k.toNat ≤ greatestLiteral Config.immDigits)

end Sys2Proof
end

