-- ==== Sys2Proof/Decode.lean ====
section
/-! DEFINITION. From a word to an instruction and back (spec/30_encoding.md rules R40, R41, R44 to R46). Decoding is
total: every word is exactly one instruction or illegal by name (R45). -/

namespace Sys2Proof

/-- What a word decodes to (R45). -/
inductive Decoded where
  /-- One of the 15 instructions. -/
  | instr (i : Instr)
  /-- No instruction: the opcode is not one of the 15 (R46). -/
  | illegal (opcode : Nat)
deriving DecidableEq, Repr

/-- `opcode = w[23:16]` (R41). -/
def opcodeField (w : InstrWord) : BitVec 8 := w.extractLsb' 16 8

/-- `operand = w[15:0]` (R41). -/
def operandField (w : InstrWord) : Operand := w.extractLsb' 0 16

/-- The opcode map of R44: "The code selects the instruction; the operand field plays no part in selection." -/
def decodePair (opcode : Nat) (a : Operand) : Decoded :=
  match opcode with
  | 10 => .instr (.read a)
  | 11 => .instr (.writ a)
  | 12 => .instr (.prnt a)
  | 20 => .instr (.load a)
  | 21 => .instr (.stor a)
  | 22 => .instr (.set a)
  | 30 => .instr (.add a)
  | 31 => .instr (.sub a)
  | 32 => .instr (.div a)
  | 33 => .instr (.mult a)
  | 34 => .instr (.mod a)
  | 40 => .instr (.bran a)
  | 41 => .instr (.brng a)
  | 42 => .instr (.brzr a)
  | 99 => .instr (.halt a)
  | _ => .illegal opcode

/-- Decoding of the binary form: "match on the opcode byte only" (R45). -/
def decode (w : InstrWord) : Decoded := decodePair (opcodeField w).toNat (operandField w)

/-- The decimal code of an instruction (R44, the table's second column). -/
def codeOf : Instr → Nat
  | .read _ => 10
  | .writ _ => 11
  | .prnt _ => 12
  | .load _ => 20
  | .stor _ => 21
  | .set _ => 22
  | .add _ => 30
  | .sub _ => 31
  | .div _ => 32
  | .mult _ => 33
  | .mod _ => 34
  | .bran _ => 40
  | .brng _ => 41
  | .brzr _ => 42
  | .halt _ => 99

/-- The operand field of an instruction (R40, R43). -/
def operandOf : Instr → Operand
  | .read a | .writ a | .prnt a | .load a | .stor a | .set a | .add a | .sub a | .div a | .mult a | .mod a
  | .bran a | .brng a | .brzr a | .halt a => a

/-- `w = opcode ++ operand` (R41). -/
def wordOf (code : Nat) (a : Operand) : InstrWord := BitVec.ofNat 8 code ++ a

/-- The word of an instruction (R41, R44). -/
def encode (i : Instr) : InstrWord := wordOf (codeOf i) (operandOf i)

/-- The instruction the decoder reads from the number `w`, numbered as spec/opcode_table.json numbers bits: the one
24-bit word, bit 0 its least significant bit (R41; log 12). Bits above `nbits` are 0; a number that no word holds is
no instruction. -/
def decodeTableWord (nbits w : Nat) : Option Instr :=
  let bits := w % 2 ^ nbits
  if bits < 2 ^ 24 then
    match decode (BitVec.ofNat 24 bits) with
    | .instr i => some i
    | .illegal _ => none
  else none

end Sys2Proof
end

