-- ==== Sys2Proof/Machine/State.lean ====
section
/-! DEFINITION. The state of the machine: the ten items of spec/10_state.md rule R10, and the two parameters. -/

namespace Sys2Proof.Machine

/-- STATUS, the run status (R13). -/
inductive RunStatus where
  /-- The engine performs steps. -/
  | running
  /-- The program executed HALT; final, success. -/
  | halted
  /-- A runtime fault occurred; final, failure. -/
  | faulted
deriving DecidableEq, Repr

/-- FAULT, the reason of the fault that ended the run (R14). -/
inductive FaultReason where
  /-- No fault. -/
  | none
  /-- An operand not below LEN, or the PC not below CAP (R104). -/
  | addressOutOfRange
  /-- DIV or MOD by a cell that holds 0 (R105). -/
  | divisionByZero
  /-- The PC has run past the last loaded word (R106). -/
  | missingHalt
  /-- The fetched word's opcode is not one of the 15 (R107). -/
  | illegalOpcode
  /-- An arithmetic result does not fit XLEN bits (R108). -/
  | arithmeticOverflow
deriving DecidableEq, Repr

/-- Why a load failed (R21). -/
inductive LoadFailure where
  /-- An object line was rejected (R59, R60). -/
  | internalConsistency
  /-- More object lines than CAP (R58). -/
  | programTooLarge
deriving DecidableEq, Repr

/-- LSTATUS, the outcome of the load phase (R21). -/
inductive LoadStatus where
  /-- No load has been attempted in this run. -/
  | idle
  /-- The load succeeded. -/
  | done
  /-- The load failed. -/
  | failed (why : LoadFailure)
deriving DecidableEq, Repr

/-- The tag of an output event (R20): RAW from WRIT, DISPLAY from PRNT. -/
inductive OutTag where
  | raw
  | display
deriving DecidableEq, Repr

/-- An output event, a pair (tag, value) (R20). -/
structure OutEvent where
  tag : OutTag
  value : Value
deriving DecidableEq, Repr

/-- DMEM, the data plane (R18), as its listed cells (index, value); an unlisted cell holds DEFAULT_CELL. The cell is
the only unit of memory (R26; log 7). -/
abbrev Memory := List (Nat × Value)

/-- IMEM, the instruction plane (R17), as its listed cells (index, word); an unlisted cell is unspecified (log 4). -/
abbrev InstrMemory := List (Nat × InstrWord)

/-- The canonical form of the data plane: indices strictly rising and below CAP, no cell listed that holds what an
unlisted one reads as. -/
abbrev Memory.wf (p : Params) (m : Memory) : Prop :=
  m.Pairwise (fun x y => x.1 < y.1) ∧ ∀ c ∈ m, c.1 < p.cap ∧ c.2 ≠ p.defaultCell

/-- The canonical form of the instruction plane: indices strictly rising and below CAP. -/
abbrev InstrMemory.wf (p : Params) (m : InstrMemory) : Prop :=
  m.Pairwise (fun x y => x.1 < y.1) ∧ ∀ c ∈ m, c.1 < p.cap

/-- The state: "The complete architectural state of the machine is the following ten items and nothing else" (R10);
`par` is the model's own field and holds the two OPEN parameters (R5; log 1). -/
structure State where
  /-- CAP and DEFAULT_CELL; written by no step (R16, R23). -/
  par : Params
  /-- ACC (R11). -/
  acc : Value
  /-- PC (R12). -/
  pc : ProgramCounter
  /-- STATUS (R13). -/
  status : RunStatus
  /-- FAULT (R14). -/
  fault : FaultReason
  /-- LEN (R15). -/
  len : Nat
  /-- IMEM (R17). -/
  imem : InstrMemory
  /-- DMEM (R18). -/
  dmem : Memory
  /-- IN, oldest value first (R19). -/
  input : List Value
  /-- OUT, oldest event first (R20). -/
  output : List OutEvent
  /-- LSTATUS (R21). -/
  lstatus : LoadStatus
deriving DecidableEq, Repr

/-- The model's own stops. The machine's faults are not these: taking one is a next state with STATUS = Faulted (R70). -/
inductive Fault where
  /-- A data cell at or beyond CAP, which does not exist (R18, R28), is accessed. Raised by every data instruction, in
  states with LEN > CAP only; no run reaches one (R12). Safe (log 8). -/
  | noSuchCell
deriving DecidableEq, Repr

/-- Why an instruction has no meaning in the model. -/
inductive Refusal where
  /-- The instruction is not modelled. Raised by no arm of `exec`: every instruction has its meaning. Safe. -/
  | notModelled (mnemonic : String)
deriving DecidableEq, Repr

/-- The state a run is created in, before the load (spec/70_reset_and_hazards.md rule R120 item 1, with the reset value
each rule R11 to R21 gives): `queued` is what the host has queued on IN. LEN and IMEM are "not reset" (R15, R17): LEN
is 0 and no cell of IMEM is listed (DESIGN CHOICE, log 5). -/
def State.created (p : Params) (queued : List Value) : State :=
  { par := p, acc := 0#32, pc := 0#17, status := .running, fault := .none, len := 0, imem := [], dmem := [],
    input := queued, output := [], lstatus := .idle }

/-- The machine right after reset, with the parameters of the spec's test vectors (log 1) and nothing queued (log 5). -/
def State.reset : State := State.created Params.vectors []

end Sys2Proof.Machine
end

