-- ==== Sys2Proof/Machine/Flags.lean ====
section
/-! DEFINITION. What other machines compute as flags. "It has no flags, condition codes or predicate registers"
(spec/10_state.md rule R22): what stands here are the two tests of the accumulator, the range test of a result, and
the numeric codes of the two status registers. -/

namespace Sys2Proof.Machine

/-- `fits(r)`: MIN <= r <= MAX (spec/00_scope.md rule R7). -/
abbrev fits (r : Int) : Prop := minValue ≤ r ∧ r ≤ maxValue

/-- BRNG's test, `acc < 0` on the signed value (R97). -/
abbrev isNegative (v : Value) : Prop := v.toInt < 0

/-- BRZR's test, `acc = 0` (R98). -/
abbrev isZero (v : Value) : Prop := v.toInt = 0

/-- The numeric code of STATUS (R13). -/
def statusCode : RunStatus → Nat
  | .running => 0
  | .halted => 1
  | .faulted => 2

/-- The numeric code of FAULT (R14). -/
def faultCode : FaultReason → Nat
  | .none => 0
  | .addressOutOfRange => 1
  | .divisionByZero => 2
  | .missingHalt => 3
  | .illegalOpcode => 4
  | .arithmeticOverflow => 5

end Sys2Proof.Machine
end

