-- ==== Sys2Proof/Machine/Operands.lean ====
section
/-! DEFINITION. The uses of the operand field (spec/30_encoding.md rule R43). The machine has one addressing mode, the
absolute cell index; no operand is scaled, shifted or sign-extended. -/

namespace Sys2Proof.Machine

/-- The four classes of R43. -/
inductive OperandClass where
  /-- The index of a data cell, checked against LEN. -/
  | data
  /-- The index of the next instruction, checked against LEN. -/
  | branch
  /-- The value itself, no check. -/
  | immediate
  /-- Ignored, no check. -/
  | unused
deriving DecidableEq, Repr

/-- The class of each instruction (R43). -/
def operandClass : Instr → OperandClass
  | .read _ | .writ _ | .prnt _ | .load _ | .stor _ | .add _ | .sub _ | .div _ | .mult _ | .mod _ => .data
  | .bran _ | .brng _ | .brzr _ => .branch
  | .set _ => .immediate
  | .halt _ => .unused

/-- The classes whose operand goes through `CheckAddr` (R43, R71). -/
def isChecked : OperandClass → Bool
  | .data | .branch => true
  | .immediate | .unused => false

/-- The cell index a data operand names: "used as the unsigned number it is" (R43). -/
def cellIndex (a : Operand) : Nat := a.toNat

/-- The PC a branch target gives: the operand itself (R43, R95), in the PC's 17 bits. -/
def targetPc (t : Operand) : ProgramCounter := t.setWidth 17

/-- `zext_XLEN(k)` (R7, R43): the value with the same magnitude. -/
def zextValue (k : Operand) : Value := k.setWidth 32

end Sys2Proof.Machine
end

