-- ==== Sys2Proof/Machine/Ops.lean ====
section
/-! DEFINITION. The primitives every rule is written in (spec/00_scope.md rule R8), and the shapes the instruction
rules share. -/

namespace Sys2Proof.Machine

/-- What an instruction answers. -/
abbrev Answer := Host.Outcome State Fault Refusal

/-! ## Cells listed by index -/

/-- The listed content of cell `a`, if it is listed. -/
def lookupCell {α : Type} (a : Nat) : List (Nat × α) → Option α
  | [] => none
  | (b, u) :: m => if b = a then some u else lookupCell a m

/-- The list with cell `a` holding `v`. -/
def insertCell {α : Type} (a : Nat) (v : α) : List (Nat × α) → List (Nat × α)
  | [] => [(a, v)]
  | (b, u) :: m =>
    if a < b then (a, v) :: (b, u) :: m else if a = b then (a, v) :: m else (b, u) :: insertCell a v m

/-- The list with cell `a` not listed. -/
def eraseCell {α : Type} (a : Nat) : List (Nat × α) → List (Nat × α)
  | [] => []
  | (b, u) :: m => if b = a then eraseCell a m else (b, u) :: eraseCell a m

/-! ## The data plane -/

/-- What data cell `a` of a plane holds; a cell never written holds DEFAULT_CELL (R18, R28). -/
def cellOf (d : Value) (a : Nat) (m : Memory) : Value := (lookupCell a m).getD d

/-- The plane with cell `a` holding `v`, in its canonical form: writing DEFAULT_CELL takes the cell off the list. -/
def setCellOf (d : Value) (a : Nat) (v : Value) (m : Memory) : Memory :=
  if v = d then eraseCell a m else insertCell a v m

/-- DMEM[a], the value held in data cell `a` (R18). -/
def dataCell (a : Nat) (s : State) : Value := cellOf s.par.defaultCell a s.dmem

/-- `MemRead(a, 1)`, for a < CAP (R28); a cell at or beyond CAP does not exist (log 8). -/
def memRead (a : Nat) (s : State) : Option Value :=
  if a < s.par.cap then some (dataCell a s) else none

/-- The state with DMEM[a] holding `v`. -/
def withData (a : Nat) (v : Value) (s : State) : State :=
  { s with dmem := setCellOf s.par.defaultCell a v s.dmem }

/-- `MemWrite(a, 1, v)`, for a < CAP (R29): no other cell and no other state changes. -/
def memWrite (a : Nat) (v : Value) (s : State) : Option State :=
  if a < s.par.cap then some (withData a v s) else none

/-! ## The instruction plane -/

/-- IMEM[a]; a cell the loader has not written holds a free value (R17, R30; log 4). -/
def instrCell (a : Nat) (s : State) : InstrWord := (lookupCell a s.imem).getD (Config.unspecifiedWord a)

/-- `Fetch(pc)` (R30, R67). -/
def fetchWord (s : State) : InstrWord := instrCell s.pc.toNat s

/-- The state with IMEM[a] holding `w`; only the loader does this (R17). -/
def storeWord (a : Nat) (w : InstrWord) (s : State) : State := { s with imem := insertCell a w s.imem }

/-! ## Registers and channels -/

/-- `acc <- v` (R11). -/
def setAcc (v : Value) (s : State) : State := { s with acc := v }

/-- `pc <- pc + 1` (R69). -/
def advancePc (s : State) : State := { s with pc := s.pc + 1#17 }

/-- `pc <- t` (R69, R95). -/
def jumpTo (t : Operand) (s : State) : State := { s with pc := targetPc t }

/-- `STATUS <- Halted` (R99). -/
def enterHalted (s : State) : State := { s with status := .halted }

/-- The state with IN holding `vs`. -/
def withInput (vs : List Value) (s : State) : State := { s with input := vs }

/-- `In()` (R19): the oldest value and the state without it, or nothing when the queue is empty. -/
def takeInput (s : State) : Option (Value × State) :=
  match s.input with
  | [] => none
  | v :: rest => some (v, withInput rest s)

/-- `Out(f, v)` (R20): the event is appended; it always completes at once. -/
def emit (f : OutTag) (v : Value) (s : State) : State := { s with output := s.output ++ [⟨f, v⟩] }

/-- The host appends a value to IN, at any time (R19); its only write to the engine's state in a run (R6, R126). -/
def hostAppend (v : Value) (s : State) : State := withInput (s.input ++ [v]) s

/-! ## Taking a fault -/

/-- `raise Fault(r)`: STATUS <- Faulted, FAULT <- r and nothing else (R70, R110). There is no handler and no vector,
and no return (R110, R111): no step is enabled afterwards. -/
def raiseFault (r : FaultReason) (s : State) : State := { s with status := .faulted, fault := r }

/-! ## The shared shapes of the instruction rules -/

/-- `CheckAddr(a)`, then the rest `k` of the rule (R71). -/
def checkAddr (a : Operand) (s : State) (k : Answer) : Answer :=
  if s.len ≤ cellIndex a then .next (raiseFault .addressOutOfRange s) else k

/-- `CheckAddr(a); d <- MemRead(a, 1)`, then the rest `k` of the rule, given d. -/
def withCell (a : Operand) (s : State) (k : Value → Answer) : Answer :=
  checkAddr a s <| match memRead (cellIndex a) s with
    | some d => k d
    | none => .fault .noSuchCell

/-- `MemWrite(a, 1, v); pc <- pc + 1`. -/
def storeAndAdvance (a : Operand) (v : Value) (s : State) : Answer :=
  match memWrite (cellIndex a) v s with
  | some t => .next (advancePc t)
  | none => .fault .noSuchCell

/-- `acc <- v; pc <- pc + 1`. -/
def accAndAdvance (v : Value) (s : State) : Answer := .next (advancePc (setAcc v s))

/-- `if not fits(r): raise Fault(ArithmeticOverflow); acc <- r; pc <- pc + 1` (R85): the exact result is written when
it fits, and is never wrapped. -/
def commitResult (r : Int) (s : State) : Answer :=
  if fits r then accAndAdvance (BitVec.ofInt 32 r) s else .next (raiseFault .arithmeticOverflow s)

/-- `CheckAddr(t)`, then `pc <- t` where the branch is taken and `pc <- pc + 1` where it is not (R95). -/
def branchIf (taken : Prop) [Decidable taken] (t : Operand) (s : State) : Answer :=
  checkAddr t s (.next (if taken then jumpTo t s else advancePc s))

end Sys2Proof.Machine
end

