-- ==== Sys2Proof/Machine/Arithmetic.lean ====
section
/-! DEFINITION. ADD, SUB, DIV, MULT, MOD (spec/44_arithmetic.md rules R85 to R91). The accumulator is the left operand
and the destination, the data cell the right operand; the result is computed exactly, as an integer (R85). -/

namespace Sys2Proof.Machine

/-- `tdiv(n, d)`, the quotient truncated toward zero (R86). -/
def tdiv (n d : Int) : Int := Int.tdiv n d

/-- `tmod(n, d) = n - d * tdiv(n, d)` (R86). -/
def tmod (n d : Int) : Int := n - d * tdiv n d

/-- ADD a (R87). -/
def execAdd (a : Operand) (s : State) : Answer :=
  withCell a s fun d => commitResult (s.acc.toInt + d.toInt) s

/-- SUB a (R88): accumulator minus cell. -/
def execSub (a : Operand) (s : State) : Answer :=
  withCell a s fun d => commitResult (s.acc.toInt - d.toInt) s

/-- DIV a (R89): the zero check comes before the overflow check. -/
def execDiv (a : Operand) (s : State) : Answer :=
  withCell a s fun d =>
    if isZero d then .next (raiseFault .divisionByZero s) else commitResult (tdiv s.acc.toInt d.toInt) s

/-- MULT a (R90). -/
def execMult (a : Operand) (s : State) : Answer :=
  withCell a s fun d => commitResult (s.acc.toInt * d.toInt) s

/-- MOD a (R91): the remainder "always fits", and no overflow is checked. -/
def execMod (a : Operand) (s : State) : Answer :=
  withCell a s fun d =>
    if isZero d then .next (raiseFault .divisionByZero s)
    else accAndAdvance (BitVec.ofInt 32 (tmod s.acc.toInt d.toInt)) s

end Sys2Proof.Machine
end

