-- ==== Sys2Proof/Machine/Control.lean ====
section
/-! DEFINITION. BRAN, BRNG, BRZR, HALT (spec/45_control.md rules R95 to R99). -/

namespace Sys2Proof.Machine

/-- BRAN t (R96). -/
def execBran (t : Operand) (s : State) : Answer := branchIf True t s

/-- BRNG t (R97): the target is checked whether or not the branch is taken (R95). -/
def execBrng (t : Operand) (s : State) : Answer := branchIf (isNegative s.acc) t s

/-- BRZR t (R98). -/
def execBrzr (t : Operand) (s : State) : Answer := branchIf (isZero s.acc) t s

/-- HALT (R99): the operand is ignored and the PC is advanced. -/
def execHalt (_x : Operand) (s : State) : Answer := .next (advancePc (enterHalted s))

end Sys2Proof.Machine
end

