-- ==== Sys2Proof/Machine/InputOutput.lean ====
section
/-! DEFINITION. READ, WRIT, PRNT (spec/42_io.md rules R75 to R77). None touches the accumulator (R78). -/

namespace Sys2Proof.Machine

/-- READ a (R75): the bound check comes first; with IN empty the step stalls and changes nothing (R19, R73; log 3). -/
def execRead (a : Operand) (s : State) : Answer :=
  checkAddr a s <| match takeInput s with
    | some (v, t) => storeAndAdvance a v t
    | none => .next s

/-- WRIT a (R76). -/
def execWrit (a : Operand) (s : State) : Answer :=
  withCell a s fun d => .next (advancePc (emit .raw d s))

/-- PRNT a (R77): the addressed cell, not the accumulator; only the tag differs from WRIT. -/
def execPrnt (a : Operand) (s : State) : Answer :=
  withCell a s fun d => .next (advancePc (emit .display d s))

end Sys2Proof.Machine
end

