-- ==== Sys2Proof/Machine/Transfer.lean ====
section
/-! DEFINITION. LOAD, STOR, SET (spec/43_load_store.md rules R80 to R82). -/

namespace Sys2Proof.Machine

/-- LOAD a (R80). -/
def execLoad (a : Operand) (s : State) : Answer :=
  withCell a s fun d => accAndAdvance d s

/-- STOR a (R81). -/
def execStor (a : Operand) (s : State) : Answer :=
  checkAddr a s (storeAndAdvance a s.acc s)

/-- SET k (R82): no bound check, the operand is not an address. -/
def execSet (k : Operand) (s : State) : Answer :=
  accAndAdvance (zextValue k) s

end Sys2Proof.Machine
end

