-- ==== Sys2Proof/Machine/Dispatch.lean ====
section
/-! DEFINITION. One arm per instruction, each a call of its meaning (spec/41_engine_cycle.md rule R68). -/

namespace Sys2Proof.Machine

/-- The effect of the instruction selected (R68). -/
def exec (i : Instr) (s : State) : Host.Outcome State Fault Refusal :=
  match i with
  | .read a => Sys2Proof.Machine.execRead a s
  | .writ a => Sys2Proof.Machine.execWrit a s
  | .prnt a => Sys2Proof.Machine.execPrnt a s
  | .load a => Sys2Proof.Machine.execLoad a s
  | .stor a => Sys2Proof.Machine.execStor a s
  | .set k => Sys2Proof.Machine.execSet k s
  | .add a => Sys2Proof.Machine.execAdd a s
  | .sub a => Sys2Proof.Machine.execSub a s
  | .div a => Sys2Proof.Machine.execDiv a s
  | .mult a => Sys2Proof.Machine.execMult a s
  | .mod a => Sys2Proof.Machine.execMod a s
  | .bran t => Sys2Proof.Machine.execBran t s
  | .brng t => Sys2Proof.Machine.execBrng t s
  | .brzr t => Sys2Proof.Machine.execBrzr t s
  | .halt x => Sys2Proof.Machine.execHalt x s

end Sys2Proof.Machine
end

