-- ==== Sys2Proof/Machine/Fetch.lean ====
section
/-! DEFINITION. When a step happens, what it checks before it fetches, and how a word is put where the next fetch reads
(spec/41_engine_cycle.md rules R65 to R67). -/

namespace Sys2Proof.Machine

/-- "A step is enabled exactly when LSTATUS = Done and STATUS = Running" (R65). -/
abbrev stepEnabled (s : State) : Prop := s.lstatus = .done ∧ s.status = .running

/-- The two fetch checks of R66 in their order, and the decoding of R67: the fault the step raises before any
instruction runs, or the instruction it runs. -/
def fetchDecode (s : State) : FaultReason ⊕ Instr :=
  if s.par.cap ≤ s.pc.toNat then .inl .addressOutOfRange
  else if s.len ≤ s.pc.toNat then .inl .missingHalt
  else match decode (fetchWord s) with
    | .illegal _ => .inl .illegalOpcode
    | .instr i => .inr i

/-- The state as a load from outside the machine leaves it for the next fetch (log 11): word `w` stands at the PC, LEN
covers it, LSTATUS = Done and STATUS = Running. A PC that names no cell (at or beyond CAP) is first put at the entry
point, 0. -/
def placeNextWord (w : InstrWord) (s : State) : State :=
  let at0 := if s.pc.toNat < s.par.cap then s.pc else 0#17
  { storeWord at0.toNat w s with
    pc := at0, len := max s.len (at0.toNat + 1), lstatus := .done, status := .running, fault := .none }

end Sys2Proof.Machine
end

