-- ==== Sys2Proof/Machine/Step.lean ====
section
/-! DEFINITION. One step of the engine (spec/41_engine_cycle.md rules R65 to R74). -/

namespace Sys2Proof.Machine

/-- One step: fetch, decode, then the instruction's effect (R74). Where no step is enabled "the engine does nothing: no
state changes" (R65): the state as it is (log 2). -/
def step (s : State) : Host.Outcome State Fault Refusal :=
  if stepEnabled s then
    match fetchDecode s with
    | .inl r => .next (raiseFault r s)
    | .inr i => exec i s
  else .next s

/-- `s` with the word `w` (its low `nbits` bits) stored where `step` fetches its next instruction (log 11). -/
def State.withFetchWord (s : State) (nbits w : Nat) : State := placeNextWord (BitVec.ofNat 24 (w % 2 ^ nbits)) s

end Sys2Proof.Machine
end

