-- ==== Sys2Proof/Machine/Loader.lean ====
section
/-! DEFINITION. The instruction memory loader (spec/40_loader.md rules R55 to R64), the optional front end that fills
IMEM from object lines, and the text form of a word (spec/30_encoding.md rule R42). -/

namespace Sys2Proof.Machine

/-- An object line: its characters, the line break already removed (R55). -/
abbrev ObjectLine := List Char

/-- "a decimal digit `0` to `9`" (R56 condition 1). -/
def isDigit (c : Char) : Bool := decide (48 ≤ c.toNat ∧ c.toNat ≤ 57)

/-- The number a digit spells. -/
def digitValue (c : Char) : Nat := c.toNat - 48

/-- The decimal number spelled by the digits, "leading zeros ignored" (R56). -/
def decimalValue (cs : List Char) : Nat := cs.foldl (fun n c => 10 * n + digitValue c) 0

/-- The most digits the operand literal may have, by the code: IMM_DIGITS for 22, ADDR_DIGITS otherwise (R56
condition 4, R54). -/
def literalBound (code : Nat) : Nat := if code = 22 then Config.immDigits else Config.addrDigits

/-- The word an accepted line decodes to; none where the line is rejected (R56, conditions 1 to 4). -/
def parseLine : ObjectLine → Option InstrWord
  | c1 :: c2 :: c3 :: rest =>
    let code := decimalValue [c1, c2]
    let literal := c3 :: rest
    if (c1 :: c2 :: literal).all isDigit ∧ code ∈ legalOpcodes ∧ literal.length ≤ literalBound code then
      some (wordOf code (BitVec.ofNat 16 (decimalValue literal)))
    else none
  | _ => none

/-- The loop of R64 from line `k` on: each accepted line is stored at its positional index (R57), the first rejected
one ends the load (R59, R60), and at the end LEN and LSTATUS are written (R61). -/
def loadFrom (k : Nat) : List ObjectLine → State → State
  | [], s => { s with len := k, lstatus := .done }
  | l :: ls, s =>
    match parseLine l with
    | none => { s with lstatus := .failed .internalConsistency }
    | some w => loadFrom (k + 1) ls (storeWord k w s)

/-- The load phase (R64): the capacity check first, before any line is stored (R58). It "runs once per run" (R55): where
a load has been attempted it does nothing (log 6). -/
def load (lines : List ObjectLine) (s : State) : State :=
  if s.lstatus = .idle then
    if s.par.cap < lines.length then { s with lstatus := .failed .programTooLarge } else loadFrom 0 lines s
  else s

/-- The state a run's execute phase begins in: created, then loaded (R120 items 1 to 3, R24). -/
def startRun (p : Params) (queued : List Value) (lines : List ObjectLine) : State := load lines (State.created p queued)

/-- The character of a decimal digit. -/
def digitChar (n : Nat) : Char := Char.ofNat (48 + n % 10)

/-- `n` spelled with exactly `width` decimal digits, leading zeros included. -/
def decimalDigits : (width : Nat) → (n : Nat) → List Char
  | 0, _ => []
  | width + 1, n => decimalDigits width (n / 10) ++ [digitChar n]

/-- An object line of a spellable instruction: the two-digit code, then the operand literal, no separator (R42). Of the
spellings R42 allows, the one at full width, as the spec's examples have it (log 12). -/
def objectLine (i : Instr) : ObjectLine :=
  decimalDigits 2 (codeOf i) ++ decimalDigits (literalBound (codeOf i)) (operandOf i).toNat

end Sys2Proof.Machine
end

