-- ==== Sys2Proof/Safety.lean ====
section
/-! DEFINITION. The invariant of the machine, and how a run ends, in the terms the statements use. -/

namespace Sys2Proof.Machine

/-- What every reachable state satisfies: "0 <= pc <= LEN <= CAP <= 65536" (R12), both planes in canonical form, and
FAULT other than None exactly while STATUS = Faulted (R14). -/
structure Inv (s : State) : Prop where
  legal : s.par.Legal
  len_le : s.len ≤ s.par.cap
  pc_le : s.pc.toNat ≤ s.len
  dmem_wf : Memory.wf s.par s.dmem
  imem_wf : InstrMemory.wf s.par s.imem
  fault_iff : s.status = .faulted ↔ s.fault ≠ .none

/-- Every loaded word is written, and is one of the 15 instructions: what the loader guarantees (R64). -/
def ProgramLegal (s : State) : Prop := ∀ k < s.len, ∃ w, lookupCell k s.imem = some w ∧ legalWord w = true

/-- The state after `k` steps of the engine (R72), stopping where a step stops; `Host.Core.run` of `core`. -/
def runSteps : Nat → State → Answer
  | 0, s => .next s
  | k + 1, s =>
    match step s with
    | .next t => runSteps k t
    | .fault r => .fault r
    | .refused r => .refused r

/-- A final state: STATUS has left Running (R72). -/
abbrev Final (s : State) : Prop := s.status = .halted ∨ s.status = .faulted

/-- The good end of a run (R9, R72). -/
abbrev Succeeded (s : State) : Prop := s.status = .halted

/-- The engine waits inside READ for an input value (R19, R73, R118): the next step stalls. -/
def Stalled (s : State) : Prop :=
  stepEnabled s ∧ s.input = [] ∧ ∃ a, fetchDecode s = .inr (.read a) ∧ cellIndex a < s.len

/-- The exact integer result of an arithmetic instruction on accumulator `n` and cell `d` (R85 to R91), on Lean's own
truncating division; none for the other instructions. -/
def exactResult : Instr → Int → Int → Option Int
  | .add _, n, d => some (n + d)
  | .sub _, n, d => some (n - d)
  | .div _, n, d => some (Int.tdiv n d)
  | .mult _, n, d => some (n * d)
  | .mod _, n, d => some (Int.tmod n d)
  | _, _, _ => none

/-- DIV and MOD, the instructions that check their divisor (R105). -/
def divides : Instr → Bool
  | .div _ | .mod _ => true
  | _ => false

/-- The first fault of the fixed order of spec/60_exceptions.md rule R109 whose condition holds, items 4 to 6, for
instruction `i`; None where none does. -/
def firstOperandFault (i : Instr) (s : State) : FaultReason :=
  let a := (operandOf i).toNat
  if isChecked (operandClass i) = true ∧ s.len ≤ a then .addressOutOfRange
  else if divides i = true ∧ (dataCell a s).toInt = 0 then .divisionByZero
  else match exactResult i s.acc.toInt (dataCell a s).toInt with
    | some r => if minValue ≤ r ∧ r ≤ maxValue then .none else .arithmeticOverflow
    | none => .none

/-- The whole order of R109: items 1 to 3 at fetch and decode, then items 4 to 6. -/
def firstFault (s : State) : FaultReason :=
  if s.par.cap ≤ s.pc.toNat then .addressOutOfRange
  else if s.len ≤ s.pc.toNat then .missingHalt
  else match decode (instrCell s.pc.toNat s) with
    | .illegal _ => .illegalOpcode
    | .instr i => firstOperandFault i s

end Sys2Proof.Machine
end

