-- ==== Sys2Proof/Certificates/Slice0/Obligations.lean ====
section
/-! DEFINITION. The statements for the provers. Each docstring says which rule of spec/ it formalises. `dataCell b s` is
the content of data cell b, `instrCell b s` that of instruction cell b; a record update `{ s with … }` names every field
that changes, so that every other field is the same. -/

open Sys2Proof Sys2Proof.Machine

/-! ## Decoding and encoding (spec/30_encoding.md) -/

/-- Every instruction, with every operand, decodes from its own word (R41, R44, R45). -/
def Obligations.DecodeOfEncodeIsTheInstruction : Prop :=
  ∀ i : Instr, decode (encode i) = .instr i

/-- R45: decoding is total; a word is exactly one instruction, whose word it is, or illegal and then no
instruction's word; and the opcode byte alone decides which. -/
def Obligations.EveryWordIsOneInstructionOrIllegal : Prop :=
  ∀ w : InstrWord,
    ((∃ i, decode w = .instr i ∧ encode i = w ∧ ∀ j, encode j = w → j = i) ∨
      ((∃ n, decode w = .illegal n) ∧ ∀ i, encode i ≠ w)) ∧
    ∀ v : InstrWord, v.extractLsb' 16 8 = w.extractLsb' 16 8 →
      ((∃ n, decode v = .illegal n) ↔ ∃ n, decode w = .illegal n)

/-- R46: illegal are exactly the other opcodes, 241 of the 256 bytes and 85 of the 100 two-digit codes; a line with such
a code is rejected at load, such a word fetched raises IllegalOpcode, and a loaded program holds none below LEN. -/
def Obligations.IllegalWordsAreTheOtherOpcodes : Prop :=
  (∀ w : InstrWord, (∃ n, decode w = .illegal n) ↔ (w.extractLsb' 16 8).toNat ∉
      [10, 11, 12, 20, 21, 22, 30, 31, 32, 33, 34, 40, 41, 42, 99]) ∧
  ((List.range 256).filter fun n =>
    match decode (BitVec.ofNat 8 n ++ (0#16 : Operand)) with | .illegal _ => true | .instr _ => false).length = 241 ∧
  ((List.range 100).filter fun n =>
    match decode (BitVec.ofNat 8 n ++ (0#16 : Operand)) with | .illegal _ => true | .instr _ => false).length = 85 ∧
  (∀ l : ObjectLine, decimalValue (l.take 2) ∉
      [10, 11, 12, 20, 21, 22, 30, 31, 32, 33, 34, 40, 41, 42, 99] → parseLine l = none) ∧
  (∀ (s : State) (n : Nat), s.lstatus = .done → s.status = .running → s.pc.toNat < s.par.cap → s.pc.toNat < s.len →
    decode (instrCell s.pc.toNat s) = .illegal n →
    step s = .next { s with status := .faulted, fault := .illegalOpcode }) ∧
  (∀ (lines : List ObjectLine) (s : State), s.lstatus = .idle → (load lines s).lstatus = .done →
    ∀ k < (load lines s).len, ∃ i, decode (instrCell k (load lines s)) = .instr i)

/-- R44, the opcode table row by row: opcode byte, decimal code and operand class of each mnemonic, for every operand. -/
def Obligations.OpcodeMapSelectsTheInstruction : Prop :=
  ∀ a : Operand,
    (decode (0x0A#8 ++ a) = .instr (.read a) ∧ codeOf (.read a) = 10 ∧ operandClass (.read a) = .data) ∧
    (decode (0x0B#8 ++ a) = .instr (.writ a) ∧ codeOf (.writ a) = 11 ∧ operandClass (.writ a) = .data) ∧
    (decode (0x0C#8 ++ a) = .instr (.prnt a) ∧ codeOf (.prnt a) = 12 ∧ operandClass (.prnt a) = .data) ∧
    (decode (0x14#8 ++ a) = .instr (.load a) ∧ codeOf (.load a) = 20 ∧ operandClass (.load a) = .data) ∧
    (decode (0x15#8 ++ a) = .instr (.stor a) ∧ codeOf (.stor a) = 21 ∧ operandClass (.stor a) = .data) ∧
    (decode (0x16#8 ++ a) = .instr (.set a) ∧ codeOf (.set a) = 22 ∧ operandClass (.set a) = .immediate) ∧
    (decode (0x1E#8 ++ a) = .instr (.add a) ∧ codeOf (.add a) = 30 ∧ operandClass (.add a) = .data) ∧
    (decode (0x1F#8 ++ a) = .instr (.sub a) ∧ codeOf (.sub a) = 31 ∧ operandClass (.sub a) = .data) ∧
    (decode (0x20#8 ++ a) = .instr (.div a) ∧ codeOf (.div a) = 32 ∧ operandClass (.div a) = .data) ∧
    (decode (0x21#8 ++ a) = .instr (.mult a) ∧ codeOf (.mult a) = 33 ∧ operandClass (.mult a) = .data) ∧
    (decode (0x22#8 ++ a) = .instr (.mod a) ∧ codeOf (.mod a) = 34 ∧ operandClass (.mod a) = .data) ∧
    (decode (0x28#8 ++ a) = .instr (.bran a) ∧ codeOf (.bran a) = 40 ∧ operandClass (.bran a) = .branch) ∧
    (decode (0x29#8 ++ a) = .instr (.brng a) ∧ codeOf (.brng a) = 41 ∧ operandClass (.brng a) = .branch) ∧
    (decode (0x2A#8 ++ a) = .instr (.brzr a) ∧ codeOf (.brzr a) = 42 ∧ operandClass (.brzr a) = .branch) ∧
    (decode (0x63#8 ++ a) = .instr (.halt a) ∧ codeOf (.halt a) = 99 ∧ operandClass (.halt a) = .unused)

/-- R41: the layout of the 24-bit word. -/
def Obligations.BinaryFormIsOpcodeThenOperand : Prop :=
  ∀ i : Instr,
    encode i = BitVec.ofNat 8 (codeOf i) ++ operandOf i ∧
    ((encode i).extractLsb' 16 8).toNat = codeOf i ∧ (encode i).extractLsb' 0 16 = operandOf i ∧
    (encode i).toNat = codeOf i * 65536 + (operandOf i).toNat

/-- Words the spec writes out (spec/95_test_vectors.md sections 1 and 2.1), one for each family. -/
def Obligations.SpecWordsDecodeAsWritten : Prop :=
  decode 0x0A0000#24 = .instr (.read 0#16) ∧ decode 0x0C0000#24 = .instr (.prnt 0#16) ∧
  decode 0x140000#24 = .instr (.load 0#16) ∧ decode 0x16270F#24 = .instr (.set 9999#16) ∧
  decode 0x1E0001#24 = .instr (.add 1#16) ∧ decode 0x21FFFF#24 = .instr (.mult 65535#16) ∧
  decode 0x2A0063#24 = .instr (.brzr 99#16) ∧ decode 0x63ABCD#24 = .instr (.halt 0xABCD#16) ∧
  decode 0x000000#24 = .illegal 0 ∧ decode 0x2B0000#24 = .illegal 43

/-- R42: the object line carries the same pair as the word; the lines the loader accepts are those of the spellable
instructions. The spelling `objectLine` uses, full width with leading zeros, is the model's choice among R42's (log 12). -/
def Obligations.ObjectLinesRoundTrip : Prop :=
  (∀ i : Instr, spellable i = true → parseLine (objectLine i) = some (encode i)) ∧
  (∀ (l : ObjectLine) (w : InstrWord), parseLine l = some w → ∃ i, decode w = .instr i ∧ spellable i = true)

/-! ## The loader (spec/40_loader.md) -/

/-- R56: the four conditions, and the word an accepted line decodes to. -/
def Obligations.AcceptedLinesAreExactlyTheWellFormed : Prop :=
  decimalValue [] = 0 ∧
  (∀ (cs : List Char) (c : Char), decimalValue (cs ++ [c]) = 10 * decimalValue cs + (c.toNat - '0'.toNat)) ∧
  ∀ (l : ObjectLine) (w : InstrWord), parseLine l = some w ↔
    (∀ c ∈ l, '0' ≤ c ∧ c ≤ '9') ∧ 3 ≤ l.length ∧
    decimalValue (l.take 2) ∈ [10, 11, 12, 20, 21, 22, 30, 31, 32, 33, 34, 40, 41, 42, 99] ∧
    (l.drop 2).length ≤ (if decimalValue (l.take 2) = 22 then 4 else 2) ∧
    (w.extractLsb' 16 8).toNat = decimalValue (l.take 2) ∧ (w.extractLsb' 0 16).toNat = decimalValue (l.drop 2)

/-- R58: the capacity check comes first and a load that fails it stores nothing; n = CAP is accepted. -/
def Obligations.LoadingMoreLinesThanCapacityFails : Prop :=
  ∀ (lines : List ObjectLine) (s : State), s.lstatus = .idle →
    (s.par.cap < lines.length → load lines s = { s with lstatus := .failed .programTooLarge }) ∧
    (lines.length ≤ s.par.cap → (load lines s).lstatus ≠ .failed .programTooLarge)

/-- R59, R60: a line that fails any of R56's conditions fails the load with InternalConsistency. -/
def Obligations.LoadingRejectedLineFails : Prop :=
  ∀ (lines : List ObjectLine) (s : State), s.lstatus = .idle → lines.length ≤ s.par.cap →
    (∃ l ∈ lines, (∃ c ∈ l, c < '0' ∨ '9' < c) ∨ l.length < 3 ∨
      decimalValue (l.take 2) ∉ [10, 11, 12, 20, 21, 22, 30, 31, 32, 33, 34, 40, 41, 42, 99] ∨
      (if decimalValue (l.take 2) = 22 then 4 else 2) < (l.drop 2).length) →
    (load lines s).lstatus = .failed .internalConsistency

/-- R55, R57, R61: the successful load. -/
def Obligations.LoadStoresEachLineAtItsIndex : Prop :=
  ∀ (lines : List ObjectLine) (s : State), s.lstatus = .idle → lines.length ≤ s.par.cap →
    (∀ l ∈ lines, parseLine l ≠ none) →
    ∃ t, load lines s = t ∧ t = { s with imem := t.imem, len := lines.length, lstatus := .done } ∧
      ∀ (k : Nat) (l : ObjectLine), lines[k]? = some l → parseLine l = some (instrCell k t)

/-- R64's guarantee on success. The states are any before the load, with PC and memory as they may be. -/
def Obligations.LoadedProgramIsLegal : Prop :=
  ∀ (lines : List ObjectLine) (s : State), s.lstatus = .idle → (load lines s).lstatus = .done →
    (load lines s).len ≤ s.par.cap ∧
    ∀ k < (load lines s).len, ∃ w, lookupCell k (load lines s).imem = some w ∧
      (w.extractLsb' 16 8).toNat ∈ [10, 11, 12, 20, 21, 22, 30, 31, 32, 33, 34, 40, 41, 42, 99] ∧
      (w.extractLsb' 0 16).toNat ≤ 9999 ∧ ((w.extractLsb' 16 8).toNat ≠ 22 → (w.extractLsb' 0 16).toNat ≤ 99)

/-- R24, item by item. -/
def Obligations.ExecutePhaseBeginsInTheResetState : Prop :=
  ∀ (p : Params) (queued : List Value) (lines : List ObjectLine), lines.length ≤ p.cap →
    (∀ l ∈ lines, parseLine l ≠ none) →
    ∃ t, startRun p queued lines = t ∧ t.par = p ∧ t.acc = 0#32 ∧ t.pc = 0#17 ∧ t.status = .running ∧ t.fault = .none ∧
      t.len = lines.length ∧
      (∀ (k : Nat) (l : ObjectLine), lines[k]? = some l → parseLine l = some (instrCell k t)) ∧
      (∀ a, dataCell a t = p.defaultCell) ∧ t.input = queued ∧ t.output = [] ∧ t.lstatus = .done

/-- R62: after a failed load no step does anything, OUT is empty, nothing is taken from IN, STATUS and FAULT are not set; the
reason is ProgramTooLarge exactly when there are too many lines. That a step which is not enabled answers the same state
is the model's choice (log 2). -/
def Obligations.FailedLoadNeverStarts : Prop :=
  ∀ (p : Params) (queued : List Value) (lines : List ObjectLine) (why : LoadFailure),
    (startRun p queued lines).lstatus = .failed why →
    (∀ k, runSteps k (startRun p queued lines) = .next (startRun p queued lines)) ∧
    (startRun p queued lines).output = [] ∧ (startRun p queued lines).input = queued ∧
    (startRun p queued lines).status = .running ∧ (startRun p queued lines).fault = .none ∧
    (why = .programTooLarge ↔ p.cap < lines.length)

/-! ## The step (spec/41_engine_cycle.md) -/

/-- R67, R68: in a state in which a step is enabled and both fetch checks pass, the step is the decoded instruction. The step
adds nothing around `exec`: each instruction moves the PC itself (R69). -/
def Obligations.StepRunsTheDecodedInstruction : Prop :=
  ∀ (s : State) (i : Instr), s.lstatus = .done → s.status = .running → s.pc.toNat < s.par.cap → s.pc.toNat < s.len →
    decode (instrCell s.pc.toNat s) = .instr i → step s = exec i s

/-- R65. That the step answers the same state, and not no state, is the model's choice (log 2). -/
def Obligations.DisabledStepChangesNothing : Prop :=
  ∀ s : State, ¬ (s.lstatus = .done ∧ s.status = .running) → step s = .next s

/-- R66: the two checks on the PC in their order, then the decoded word, as R67 has it. -/
def Obligations.FetchChecksCapacityThenLength : Prop :=
  ∀ s : State, s.lstatus = .done → s.status = .running →
    (s.par.cap ≤ s.pc.toNat → step s = .next { s with status := .faulted, fault := .addressOutOfRange }) ∧
    (s.pc.toNat < s.par.cap → s.len ≤ s.pc.toNat → step s = .next { s with status := .faulted, fault := .missingHalt }) ∧
    (s.pc.toNat < s.par.cap → s.pc.toNat < s.len → step s =
      match decode (instrCell s.pc.toNat s) with
      | .instr i => exec i s
      | .illegal _ => .next { s with status := .faulted, fault := .illegalOpcode }) ∧
    (Inv s → s.par.cap ≤ s.pc.toNat → s.len = s.par.cap ∧ s.pc.toNat = s.par.cap)

/-- R109 (with R103 to R108): `firstFault` is the rule's list of six conditions in its order. That a READ which waits on an
empty IN, where none of the six holds, answers a next state and not no step (R19) is the model's choice (log 3). -/
def Obligations.FirstFaultInPriorityOrderIsRaised : Prop :=
  ∀ s : State, s.lstatus = .done → s.status = .running → s.fault = .none → s.len ≤ s.par.cap →
    ∃ t, step s = .next t ∧ t.fault = firstFault s ∧ (t.status = .faulted ↔ firstFault s ≠ .none)

/-- R71: `CheckAddr` guards every data and branch operand; SET and HALT do not call it. -/
def Obligations.EveryAddressOperandIsBoundChecked : Prop :=
  (∀ (i : Instr) (s : State), operandClass i = .data ∨ operandClass i = .branch → s.len ≤ (operandOf i).toNat →
    exec i s = .next { s with status := .faulted, fault := .addressOutOfRange }) ∧
  (∀ (i : Instr) (s : State), operandClass i = .immediate ∨ operandClass i = .unused →
    ∃ t, exec i s = .next t ∧ t.fault = s.fault ∧ (s.status ≠ .faulted → t.status ≠ .faulted)) ∧
  ∀ (i : Instr) (s t : State), operandClass i = .data ∨ operandClass i = .branch →
    (operandOf i).toNat < s.len → s.fault = .none → exec i s = .next t → t.fault ≠ .addressOutOfRange

/-- R70, R110, R113: a fault writes STATUS and FAULT and nothing else, and ends the run. -/
def Obligations.FaultChangesOnlyStatusAndFault : Prop :=
  ∀ s t : State, s.status ≠ .faulted → step s = .next t → t.status = .faulted →
    t = { s with status := .faulted, fault := t.fault } ∧ t.fault ≠ .none ∧
    ¬ (t.lstatus = .done ∧ t.status = .running) ∧ ∀ k u, runSteps k t = .next u → u = t

/-- R13: the values with their codes, the transitions and what enters each, and the reset value. -/
def Obligations.StatusMovesOnlyFromRunning : Prop :=
  statusCode .running = 0 ∧ statusCode .halted = 1 ∧ statusCode .faulted = 2 ∧
  (∀ (p : Params) (queued : List Value), (State.created p queued).status = .running) ∧
  ∀ s t : State, step s = .next t →
    (t.status = s.status ∨ (s.status = .running ∧ t.status = .halted) ∨ (s.status = .running ∧ t.status = .faulted)) ∧
    (s.status ≠ .running → t = s) ∧
    (s.status = .running → t.status = .halted → ∃ x, decode (instrCell s.pc.toNat s) = .instr (.halt x)) ∧
    (s.status = .running → t.status = .faulted → t.fault ≠ .none)

/-- R14: the codes of FAULT, None at reset, and None unless Faulted after every step from a state that reads so. -/
def Obligations.FaultReasonsHaveTheirCodes : Prop :=
  faultCode .none = 0 ∧ faultCode .addressOutOfRange = 1 ∧ faultCode .divisionByZero = 2 ∧ faultCode .missingHalt = 3 ∧
  faultCode .illegalOpcode = 4 ∧ faultCode .arithmeticOverflow = 5 ∧
  (∀ (p : Params) (queued : List Value), (State.created p queued).fault = .none) ∧
  ∀ s t : State, (s.status ≠ .faulted → s.fault = .none) → step s = .next t →
    (t.status ≠ .faulted → t.fault = .none) ∧ (s.fault ≠ .none → t.fault = s.fault)

/-- No step stops the model while LEN <= CAP: no instruction is refused, and every fault of the machine is a next state. The
one stop the model has, an access beyond CAP (log 8), needs LEN > CAP, which no run reaches (R12). Where the
spec has no step the model answers the same state, by its own choice: a state that is not enabled (R65; log 2), a READ
waiting on an empty IN (R19; log 3). -/
def Obligations.StepAlwaysAnswersANextState : Prop :=
  ∀ s : State, s.len ≤ s.par.cap → ∃ t, step s = .next t

/-- R12, R14: every step keeps 0 <= pc <= LEN <= CAP <= 65536, both planes in canonical form, and FAULT other than None
exactly while Faulted. -/
def Obligations.StepKeepsTheInvariant : Prop :=
  ∀ s t : State, Inv s → step s = .next t → Inv t

/-- The invariant holds where a run is created, for all legal parameters and all queued input, and at State.reset. -/
def Obligations.CreatedStateMeetsTheInvariant : Prop :=
  (∀ (p : Params) (queued : List Value), p.Legal → Inv (State.created p queued)) ∧ Inv State.reset

/-- A load, successful or not, keeps the invariant of a state that is at the entry point. -/
def Obligations.LoadKeepsTheInvariant : Prop :=
  ∀ (lines : List ObjectLine) (s : State), Inv s → s.pc = 0#17 → Inv (load lines s)

/-- The headline over runs, for every program, every input and all parameters: after a successful load every step of the run
answers a next state, which meets the invariant and whose program is legal, and IllegalOpcode is never raised (R12, R67,
R107). That the run goes on answering the same state after Halted or Faulted (log 2) and in a READ that waits (log 3) is
the model's choice; there the spec has no step. -/
def Obligations.LoadedRunsNeverStopOrMeetIllegalOpcode : Prop :=
  ∀ (p : Params) (queued : List Value) (lines : List ObjectLine), p.Legal →
    (startRun p queued lines).lstatus = .done →
    ∀ k, ∃ t, runSteps k (startRun p queued lines) = .next t ∧ Inv t ∧ ProgramLegal t ∧
      t.fault ≠ .illegalOpcode

/-- The step of the headline above: legality of the program is kept, and IllegalOpcode is not raised (R107). -/
def Obligations.LegalProgramsNeverRaiseIllegalOpcode : Prop :=
  ∀ s t : State, ProgramLegal s → step s = .next t →
    ProgramLegal t ∧ (t.fault = .illegalOpcode → s.fault = .illegalOpcode)

/-- R37, R15, R16: no step writes IMEM, LEN, LSTATUS, CAP or DEFAULT_CELL; no store is seen by a fetch. -/
def Obligations.ProgramIsConstantDuringExecution : Prop :=
  (∀ (s : State) (k : Nat) (t : State), runSteps k s = .next t →
    t.imem = s.imem ∧ t.len = s.len ∧ t.lstatus = s.lstatus ∧ t.par = s.par ∧ ∀ b, instrCell b t = instrCell b s) ∧
  (∀ (a b : Nat) (v : Value) (s t : State), memWrite a v s = some t → instrCell b t = instrCell b s)

/-- R19, R20, R34: along a run OUT is only appended to and IN only consumed from its old end; one step emits at most one event
and takes at most one value. -/
def Obligations.ChannelsAreStreams : Prop :=
  (∀ (s : State) (k : Nat) (t : State), runSteps k s = .next t →
    s.output <+: t.output ∧ t.input <:+ s.input) ∧
  (∀ s t : State, step s = .next t →
    t.output.length ≤ s.output.length + 1 ∧ s.input.length ≤ t.input.length + 1)

/-- R69: what each completed step leaves in the PC, and that the increment never overflows the register. -/
def Obligations.PcMovesAsEachRuleSays : Prop :=
  ∀ s t : State, s.lstatus = .done → s.status = .running → step s = .next t →
    (t.status = .faulted → t.pc = s.pc) ∧
    (t.status ≠ .faulted → ∀ i, decode (instrCell s.pc.toNat s) = .instr i →
      match i with
      | .read _ => (s.input = [] → t.pc = s.pc) ∧ (s.input ≠ [] → t.pc = s.pc + 1#17)
      | .bran a => t.pc.toNat = a.toNat
      | .brng a => (s.acc.toInt < 0 → t.pc.toNat = a.toNat) ∧ (0 ≤ s.acc.toInt → t.pc = s.pc + 1#17)
      | .brzr a => (s.acc.toInt = 0 → t.pc.toNat = a.toNat) ∧ (s.acc.toInt ≠ 0 → t.pc = s.pc + 1#17)
      | .writ _ | .prnt _ | .load _ | .stor _ | .set _ | .add _ | .sub _ | .div _ | .mult _ | .mod _ | .halt _ =>
        t.pc = s.pc + 1#17) ∧
    (Inv s → s.pc.toNat < s.len → (s.pc + 1#17).toNat = s.pc.toNat + 1)

/-- R99 (its corner case 1), R72: the only way into Halted is a HALT fetched at the PC. -/
def Obligations.OnlyHaltEndsARunWell : Prop :=
  ∀ s t : State, s.status ≠ .halted → step s = .next t → t.status = .halted →
    s.lstatus = .done ∧ s.status = .running ∧ s.pc.toNat < s.len ∧
    ∃ x, decode (instrCell s.pc.toNat s) = .instr (.halt x) ∧ t = { s with status := .halted, pc := s.pc + 1#17 }

/-- The column 'written by' of R10's table, all ten items, for every instruction and for the loader; the parameters too. -/
def Obligations.EachItemIsWrittenOnlyByItsWriters : Prop :=
  ∀ (i : Instr) (s t : State), exec i s = .next t →
    (t.acc ≠ s.acc → ∃ a, i ∈ [.load a, .set a, .add a, .sub a, .div a, .mult a, .mod a]) ∧
    (∀ b, dataCell b t ≠ dataCell b s → ∃ a : Operand, a.toNat = b ∧ (i = .read a ∨ i = .stor a)) ∧
    (t.input ≠ s.input → ∃ a, i = .read a) ∧
    (t.output ≠ s.output → ∃ a, i = .writ a ∨ i = .prnt a) ∧
    (t.status = s.status ∨ t.status = .faulted ∨ ∃ x, i = .halt x) ∧
    (t.fault ≠ s.fault → t.status = .faulted ∧ t.fault ≠ .none) ∧ (t.pc ≠ s.pc → t.fault = s.fault) ∧
    t.len = s.len ∧ t.imem = s.imem ∧ t.lstatus = s.lstatus ∧ t.par = s.par ∧
    ∀ (lines : List ObjectLine) (u : State), ∃ v, load lines u = v ∧
      v = { u with len := v.len, imem := v.imem, lstatus := v.lstatus }

/-- R112: the arrival of an input value is observed only by a READ that is waiting for it. In every state that is not stalled,
the step and the host's append commute. That a value arrives between two steps and not inside one is the model's reading
of R19 and R73 (log 10). -/
def Obligations.InputArrivalIsSeenOnlyByAWaitingRead : Prop :=
  ∀ (s t : State) (v : Value), ¬ Stalled s → step s = .next t → step (hostAppend v s) = .next (hostAppend v t)

/-- R19, R75 corner case 1: while IN is empty the stalled READ changes nothing; when a value comes it is stored. That the
stalled step answers the same state is the model's choice (log 3). -/
def Obligations.StalledReadCompletesWhenInputArrives : Prop :=
  ∀ s : State, Stalled s → s.len ≤ s.par.cap →
    step s = .next s ∧
    ∀ v, ∃ (a : Operand) (t : State), decode (instrCell s.pc.toNat s) = .instr (.read a) ∧
      step (hostAppend v s) = .next t ∧ t = { s with pc := s.pc + 1#17, dmem := t.dmem } ∧
      dataCell a.toNat t = v ∧ ∀ b, b ≠ a.toNat → dataCell b t = dataCell b s

/-! ## Memory (spec/20_memory.md) -/

/-- R29, with the read of R28: the whole value is written, no other cell and no other state changes. -/
def Obligations.WriteChangesOneCellOnly : Prop :=
  ∀ (a : Nat) (v : Value) (s : State), a < s.par.cap →
    ∃ t, memWrite a v s = some t ∧ memRead a t = some v ∧ (∀ b, b ≠ a → memRead b t = memRead b s) ∧
      t = { s with dmem := t.dmem } ∧
      ∀ (c : Operand) (i : Instr), i ∈ [.read c, .stor c] → s.len ≤ c.toNat →
        exec i s = .next { s with status := .faulted, fault := .addressOutOfRange }

/-- The canonical form of the data plane is one list for each content: equal memories are equal data (log 7). -/
def Obligations.CanonicalMemoriesAreEqualWhenTheyReadEqual : Prop :=
  ∀ (p : Params) (m n : Memory), Memory.wf p m → Memory.wf p n →
    (∀ a, cellOf p.defaultCell a m = cellOf p.defaultCell a n) → m = n

/-- A data cell at or beyond CAP does not exist (R18, R28); a data instruction whose operand passes CheckAddr and names one
stops by name. It needs LEN > CAP, which no run reaches (R12): the model's own stop (log 8). -/
def Obligations.AccessBeyondCapacityStops : Prop :=
  ∀ (i : Instr) (s : State), operandClass i = .data → (operandOf i).toNat < s.len → s.par.cap ≤ (operandOf i).toNat →
    ((∀ a, i ≠ .read a) ∨ s.input ≠ []) → exec i s = .fault .noSuchCell

/-! ## Input and output (spec/42_io.md) -/

/-- R75, whole: the encoding and the prefix of its object line; the bound check first; the wait; the store.
That the waiting READ answers the same state, and not no state, is the model's choice (log 3). -/
def Obligations.ReadStoresTheOldestInput : Prop :=
  ∀ (a : Operand) (s : State),
    encode (.read a) = 0x0A#8 ++ a ∧
    (objectLine (.read a)).take 2 = ['1', '0'] ∧
    (s.len ≤ a.toNat → exec (.read a) s = .next { s with status := .faulted, fault := .addressOutOfRange }) ∧
    (a.toNat < s.len → s.input = [] → exec (.read a) s = .next s) ∧
    (a.toNat < s.len → a.toNat < s.par.cap → ∀ (v : Value) (rest : List Value), s.input = v :: rest →
      ∃ t, exec (.read a) s = .next t ∧ t = { s with pc := s.pc + 1#17, input := rest, dmem := t.dmem } ∧
        dataCell a.toNat t = v ∧ ∀ b, b ≠ a.toNat → dataCell b t = dataCell b s)

/-- R76, whole: the addressed cell goes to OUT with tag RAW. -/
def Obligations.WritEmitsTheCell : Prop :=
  ∀ (a : Operand) (s : State),
    encode (.writ a) = 0x0B#8 ++ a ∧
    (s.len ≤ a.toNat → exec (.writ a) s = .next { s with status := .faulted, fault := .addressOutOfRange }) ∧
    (a.toNat < s.len → a.toNat < s.par.cap → exec (.writ a) s =
      .next { s with pc := s.pc + 1#17, output := s.output ++ [⟨.raw, dataCell a.toNat s⟩] })

/-- R77, whole: the addressed cell goes to OUT with tag DISPLAY. -/
def Obligations.PrntEmitsTheCell : Prop :=
  ∀ (a : Operand) (s : State),
    encode (.prnt a) = 0x0C#8 ++ a ∧
    (s.len ≤ a.toNat → exec (.prnt a) s = .next { s with status := .faulted, fault := .addressOutOfRange }) ∧
    (a.toNat < s.len → a.toNat < s.par.cap → exec (.prnt a) s =
      .next { s with pc := s.pc + 1#17, output := s.output ++ [⟨.display, dataCell a.toNat s⟩] })

/-! ## Accumulator transfer (spec/43_load_store.md) -/

/-- R80, whole. -/
def Obligations.LoadCopiesTheCell : Prop :=
  ∀ (a : Operand) (s : State),
    encode (.load a) = 0x14#8 ++ a ∧
    (s.len ≤ a.toNat → exec (.load a) s = .next { s with status := .faulted, fault := .addressOutOfRange }) ∧
    (a.toNat < s.len → a.toNat < s.par.cap → exec (.load a) s = .next { s with acc := dataCell a.toNat s, pc := s.pc + 1#17 })

/-- R81, whole. -/
def Obligations.StorWritesTheAccumulator : Prop :=
  ∀ (a : Operand) (s : State),
    encode (.stor a) = 0x15#8 ++ a ∧
    (s.len ≤ a.toNat → exec (.stor a) s = .next { s with status := .faulted, fault := .addressOutOfRange }) ∧
    (a.toNat < s.len → a.toNat < s.par.cap →
      ∃ t, exec (.stor a) s = .next t ∧ t = { s with pc := s.pc + 1#17, dmem := t.dmem } ∧
        dataCell a.toNat t = s.acc ∧ (∀ b, b ≠ a.toNat → dataCell b t = dataCell b s) ∧
        exec (.load a) t = .next { t with acc := s.acc, pc := t.pc + 1#17 })

/-- R82, whole: no bound check, zero extension, never negative. -/
def Obligations.SetLoadsTheZeroExtendedOperand : Prop :=
  ∀ (k : Operand) (s : State),
    encode (.set k) = 0x16#8 ++ k ∧
    literalBound (codeOf (.set k)) = 4 ∧
    (∃ v : Value, v.toInt = (k.toNat : Int) ∧ 0 ≤ v.toInt ∧ v.toInt ≤ 65535 ∧
      exec (.set k) s = .next { s with acc := v, pc := s.pc + 1#17 })

/-! ## Arithmetic (spec/44_arithmetic.md) -/

/-- R87, whole: the exact sum where it fits, else ArithmeticOverflow. -/
def Obligations.AddGivesTheExactSum : Prop :=
  ∀ (a : Operand) (s : State),
    encode (.add a) = 0x1E#8 ++ a ∧
    (s.len ≤ a.toNat → exec (.add a) s = .next { s with status := .faulted, fault := .addressOutOfRange }) ∧
    (a.toNat < s.len → a.toNat < s.par.cap →
      -2147483648 ≤ s.acc.toInt + (dataCell a.toNat s).toInt → s.acc.toInt + (dataCell a.toNat s).toInt ≤ 2147483647 →
      ∃ v : Value, v.toInt = s.acc.toInt + (dataCell a.toNat s).toInt ∧
        exec (.add a) s = .next { s with acc := v, pc := s.pc + 1#17 }) ∧
    (a.toNat < s.len → a.toNat < s.par.cap →
      (s.acc.toInt + (dataCell a.toNat s).toInt < -2147483648 ∨ 2147483647 < s.acc.toInt + (dataCell a.toNat s).toInt) →
      exec (.add a) s = .next { s with status := .faulted, fault := .arithmeticOverflow })

/-- R88, whole: the exact difference where it fits, else ArithmeticOverflow. -/
def Obligations.SubGivesTheExactDifference : Prop :=
  ∀ (a : Operand) (s : State),
    encode (.sub a) = 0x1F#8 ++ a ∧
    (s.len ≤ a.toNat → exec (.sub a) s = .next { s with status := .faulted, fault := .addressOutOfRange }) ∧
    (a.toNat < s.len → a.toNat < s.par.cap →
      -2147483648 ≤ s.acc.toInt - (dataCell a.toNat s).toInt → s.acc.toInt - (dataCell a.toNat s).toInt ≤ 2147483647 →
      ∃ v : Value, v.toInt = s.acc.toInt - (dataCell a.toNat s).toInt ∧
        exec (.sub a) s = .next { s with acc := v, pc := s.pc + 1#17 }) ∧
    (a.toNat < s.len → a.toNat < s.par.cap →
      (s.acc.toInt - (dataCell a.toNat s).toInt < -2147483648 ∨ 2147483647 < s.acc.toInt - (dataCell a.toNat s).toInt) →
      exec (.sub a) s = .next { s with status := .faulted, fault := .arithmeticOverflow })

/-- R90, whole: the exact product where it fits, else ArithmeticOverflow. -/
def Obligations.MultGivesTheExactProduct : Prop :=
  ∀ (a : Operand) (s : State),
    encode (.mult a) = 0x21#8 ++ a ∧
    (s.len ≤ a.toNat → exec (.mult a) s = .next { s with status := .faulted, fault := .addressOutOfRange }) ∧
    (a.toNat < s.len → a.toNat < s.par.cap →
      -2147483648 ≤ s.acc.toInt * (dataCell a.toNat s).toInt → s.acc.toInt * (dataCell a.toNat s).toInt ≤ 2147483647 →
      ∃ v : Value, v.toInt = s.acc.toInt * (dataCell a.toNat s).toInt ∧
        exec (.mult a) s = .next { s with acc := v, pc := s.pc + 1#17 }) ∧
    (a.toNat < s.len → a.toNat < s.par.cap →
      (s.acc.toInt * (dataCell a.toNat s).toInt < -2147483648 ∨ 2147483647 < s.acc.toInt * (dataCell a.toNat s).toInt) →
      exec (.mult a) s = .next { s with status := .faulted, fault := .arithmeticOverflow })

/-- R89, whole, on Lean's truncating division (which DivisionTruncatesTowardZero ties to R86). -/
def Obligations.DivTruncatesTowardZero : Prop :=
  ∀ (a : Operand) (s : State),
    encode (.div a) = 0x20#8 ++ a ∧
    (s.len ≤ a.toNat → exec (.div a) s = .next { s with status := .faulted, fault := .addressOutOfRange }) ∧
    (a.toNat < s.len → a.toNat < s.par.cap → (dataCell a.toNat s).toInt = 0 →
      exec (.div a) s = .next { s with status := .faulted, fault := .divisionByZero }) ∧
    (a.toNat < s.len → a.toNat < s.par.cap → (dataCell a.toNat s).toInt ≠ 0 → ¬ (s.acc.toInt = -2147483648 ∧ (dataCell a.toNat s).toInt = -1) →
      ∃ v : Value, v.toInt = Int.tdiv s.acc.toInt (dataCell a.toNat s).toInt ∧
        exec (.div a) s = .next { s with acc := v, pc := s.pc + 1#17 }) ∧
    (a.toNat < s.len → a.toNat < s.par.cap → s.acc.toInt = -2147483648 → (dataCell a.toNat s).toInt = -1 →
      exec (.div a) s = .next { s with status := .faulted, fault := .arithmeticOverflow })

/-- R91, whole: MOD never overflows. -/
def Obligations.ModGivesTheTruncatedRemainder : Prop :=
  ∀ (a : Operand) (s : State),
    encode (.mod a) = 0x22#8 ++ a ∧
    (s.len ≤ a.toNat → exec (.mod a) s = .next { s with status := .faulted, fault := .addressOutOfRange }) ∧
    (a.toNat < s.len → a.toNat < s.par.cap → (dataCell a.toNat s).toInt = 0 →
      exec (.mod a) s = .next { s with status := .faulted, fault := .divisionByZero }) ∧
    (a.toNat < s.len → a.toNat < s.par.cap → (dataCell a.toNat s).toInt ≠ 0 →
      ∃ v : Value, v.toInt = Int.tmod s.acc.toInt (dataCell a.toNat s).toInt ∧
        exec (.mod a) s = .next { s with acc := v, pc := s.pc + 1#17 })

/-- R86: quotient and remainder at every sign, and the rule's table. -/
def Obligations.DivisionTruncatesTowardZero : Prop :=
  (∀ n d : Int, d ≠ 0 →
    (tdiv n d).natAbs = n.natAbs / d.natAbs ∧ (0 < n * d → 0 ≤ tdiv n d) ∧ (n * d < 0 → tdiv n d ≤ 0) ∧
    tmod n d = n - d * tdiv n d ∧ (tmod n d).natAbs < d.natAbs ∧
    (tmod n d = 0 ∨ (0 < n ∧ 0 < tmod n d) ∨ (n < 0 ∧ tmod n d < 0))) ∧
  [(7, 2), (-7, 2), (7, -2), (-7, -2), (6, 3), (-6, 3), (0, 5), (0, -5), (1, 2), (-1, 2), (5, 1), (5, -1),
    (-2147483648, -1), (-2147483648, 1), (2147483647, -1)].map (fun (x : Int × Int) => (tdiv x.1 x.2, tmod x.1 x.2)) =
  [(3, 1), (-3, -1), (-3, 1), (3, -1), (2, 0), (-2, 0), (0, 0), (0, 0), (0, 1), (0, -1), (5, 0), (-5, 0),
    (2147483648, 0), (-2147483648, 0), (-2147483647, 0)]

/-- R85: the result of an arithmetic instruction is the exact integer, or the accumulator keeps its value; which of the five
can overflow. `exactResult` is the exact result on Lean's integers. -/
def Obligations.ArithmeticNeverWraps : Prop :=
  ∀ (i : Instr) (s t : State) (r : Int), s.status = .running → s.fault = .none →
    exactResult i s.acc.toInt (dataCell (operandOf i).toNat s).toInt = some r → exec i s = .next t →
    ((t.status = .running ∧ t.acc.toInt = r ∧ -2147483648 ≤ r ∧ r ≤ 2147483647) ∨ (t.status = .faulted ∧ t.acc = s.acc)) ∧
    (t.fault = .arithmeticOverflow → (r < -2147483648 ∨ 2147483647 < r)) ∧
    ((∃ a, i = .div a) → t.fault = .arithmeticOverflow →
      s.acc.toInt = -2147483648 ∧ (dataCell (operandOf i).toNat s).toInt = -1) ∧
    ((∃ a, i = .mod a) → t.fault ≠ .arithmeticOverflow)

/-! ## Control (spec/45_control.md) -/

/-- R96, whole. -/
def Obligations.BranJumps : Prop :=
  ∀ (t : Operand) (s : State),
    encode (.bran t) = 0x28#8 ++ t ∧
    (s.len ≤ t.toNat → exec (.bran t) s = .next { s with status := .faulted, fault := .addressOutOfRange }) ∧
    (t.toNat < s.len → ∃ p : ProgramCounter, p.toNat = t.toNat ∧ exec (.bran t) s = .next { s with pc := p })

/-- R97, whole: the target is checked whether or not the branch is taken. -/
def Obligations.BrngJumpsIfNegative : Prop :=
  ∀ (t : Operand) (s : State),
    encode (.brng t) = 0x29#8 ++ t ∧
    (s.len ≤ t.toNat → exec (.brng t) s = .next { s with status := .faulted, fault := .addressOutOfRange }) ∧
    (t.toNat < s.len → s.acc.toInt < 0 →
      ∃ p : ProgramCounter, p.toNat = t.toNat ∧ exec (.brng t) s = .next { s with pc := p }) ∧
    (t.toNat < s.len → 0 ≤ s.acc.toInt → exec (.brng t) s = .next { s with pc := s.pc + 1#17 }) ∧
    (s.acc.toInt < 0 ↔ s.acc.getLsbD 31 = true)

/-- R98, whole: the target is checked whether or not the branch is taken. -/
def Obligations.BrzrJumpsIfZero : Prop :=
  ∀ (t : Operand) (s : State),
    encode (.brzr t) = 0x2A#8 ++ t ∧
    (s.len ≤ t.toNat → exec (.brzr t) s = .next { s with status := .faulted, fault := .addressOutOfRange }) ∧
    (t.toNat < s.len → s.acc.toInt = 0 →
      ∃ p : ProgramCounter, p.toNat = t.toNat ∧ exec (.brzr t) s = .next { s with pc := p }) ∧
    (t.toNat < s.len → s.acc.toInt ≠ 0 → exec (.brzr t) s = .next { s with pc := s.pc + 1#17 }) ∧
    (s.acc.toInt = 0 ↔ s.acc = 0#32)

/-- R99, whole: any operand, no check, the PC advanced; no step is enabled after it; no other
instruction halts. -/
def Obligations.HaltHalts : Prop :=
  ∀ (x : Operand) (s : State),
    encode (.halt x) = 0x63#8 ++ x ∧
    exec (.halt x) s = .next { s with status := .halted, pc := s.pc + 1#17 } ∧
    (∀ t, exec (.halt x) s = .next t → ¬ (t.lstatus = .done ∧ t.status = .running) ∧ ∀ k u, runSteps k t = .next u → u = t) ∧
    (∀ t, s.status ≠ .halted → step s = .next t → t.status = .halted →
      ∃ y, decode (instrCell s.pc.toNat s) = .instr (.halt y))

/-! ## Frames -/

/-- Frame of LOAD, SET, ADD, SUB, DIV, MULT, MOD (R80, R82, R87 to R91): only ACC and the PC change, or only STATUS and FAULT.
None of them stores: every data cell reads as before. -/
def Obligations.AccumulatorInstructionsLeaveTheRest : Prop :=
  ∀ (a : Operand) (i : Instr) (s t : State), i ∈ [.load a, .set a, .add a, .sub a, .div a, .mult a, .mod a] →
    exec i s = .next t →
    t.par = s.par ∧ t.len = s.len ∧ t.lstatus = s.lstatus ∧ t.input = s.input ∧ t.output = s.output ∧
    (∀ b, dataCell b t = dataCell b s) ∧ (∀ b, instrCell b t = instrCell b s) ∧
    ((t.status = s.status ∧ t.fault = s.fault ∧ t.pc = s.pc + 1#17) ∨
      (t.status = .faulted ∧ t.acc = s.acc ∧ t.pc = s.pc))

/-- Frame of the storing forms READ and STOR (R75, R81): `cellIndex a` is the cell they store to. -/
def Obligations.StoringInstructionsChangeOneCellOnly : Prop :=
  ∀ (a : Operand) (i : Instr) (s t : State), i ∈ [.read a, .stor a] → exec i s = .next t →
    (∀ b, b ≠ cellIndex a → dataCell b t = dataCell b s) ∧ cellIndex a = a.toNat ∧
    t.acc = s.acc ∧ t.par = s.par ∧ t.len = s.len ∧ t.lstatus = s.lstatus ∧ t.output = s.output ∧
    (∀ b, instrCell b t = instrCell b s) ∧
    (t.input = s.input ∨ (i = .read a ∧ t.input = s.input.tail)) ∧
    ((t.status = s.status ∧ t.fault = s.fault) ∨
      (t.status = .faulted ∧ t.pc = s.pc ∧ t.input = s.input ∧ ∀ b, dataCell b t = dataCell b s))

/-- Frame of WRIT and PRNT (R76 to R78): neither stores, neither touches ACC. -/
def Obligations.OutputInstructionsChangeOnlyOutput : Prop :=
  ∀ (a : Operand) (i : Instr) (s t : State), i ∈ [.writ a, .prnt a] → exec i s = .next t →
    (∀ b, dataCell b t = dataCell b s) ∧ (∀ b, instrCell b t = instrCell b s) ∧ t.acc = s.acc ∧ t.par = s.par ∧
    t.len = s.len ∧ t.lstatus = s.lstatus ∧ t.input = s.input ∧
    ((t.status = s.status ∧ t.fault = s.fault ∧ t.output.length = s.output.length + 1) ∨
      (t.status = .faulted ∧ t.pc = s.pc ∧ t.output = s.output))

/-- Frame of BRAN, BRNG, BRZR, HALT (R95, R99): they access no data cell and change neither ACC nor memory nor a channel. -/
def Obligations.ControlInstructionsChangeOnlyPcAndStatus : Prop :=
  ∀ (a : Operand) (i : Instr) (s t : State), i ∈ [.bran a, .brng a, .brzr a, .halt a] → exec i s = .next t →
    (∀ b, dataCell b t = dataCell b s) ∧ (∀ b, instrCell b t = instrCell b s) ∧ t.acc = s.acc ∧ t.par = s.par ∧
    t.len = s.len ∧ t.lstatus = s.lstatus ∧ t.input = s.input ∧ t.output = s.output ∧
    ((t.status = s.status ∧ t.fault = s.fault) ∨ (t.status = .faulted ∧ t.pc = s.pc) ∨
      (i = .halt a ∧ t.status = .halted ∧ t.fault = s.fault))
end

