-- ==== Sys2Proof/Laws/State.lean ====
section
/-! SUPPORT. What each named update of the state leaves in each field: the updates are never unfolded elsewhere. -/

namespace Sys2Proof.Machine

/-! ## `acc <- v` -/

@[simp] theorem setAcc_par (v : Value) (s : State) : (setAcc v s).par = s.par := rfl
@[simp] theorem setAcc_acc (v : Value) (s : State) : (setAcc v s).acc = v := rfl
@[simp] theorem setAcc_pc (v : Value) (s : State) : (setAcc v s).pc = s.pc := rfl
@[simp] theorem setAcc_status (v : Value) (s : State) : (setAcc v s).status = s.status := rfl
@[simp] theorem setAcc_fault (v : Value) (s : State) : (setAcc v s).fault = s.fault := rfl
@[simp] theorem setAcc_len (v : Value) (s : State) : (setAcc v s).len = s.len := rfl
@[simp] theorem setAcc_imem (v : Value) (s : State) : (setAcc v s).imem = s.imem := rfl
@[simp] theorem setAcc_dmem (v : Value) (s : State) : (setAcc v s).dmem = s.dmem := rfl
@[simp] theorem setAcc_input (v : Value) (s : State) : (setAcc v s).input = s.input := rfl
@[simp] theorem setAcc_output (v : Value) (s : State) : (setAcc v s).output = s.output := rfl
@[simp] theorem setAcc_lstatus (v : Value) (s : State) : (setAcc v s).lstatus = s.lstatus := rfl

/-! ## `pc <- pc + 1` -/

@[simp] theorem advancePc_par (s : State) : (advancePc s).par = s.par := rfl
@[simp] theorem advancePc_acc (s : State) : (advancePc s).acc = s.acc := rfl
@[simp] theorem advancePc_pc (s : State) : (advancePc s).pc = s.pc + 1#17 := rfl
@[simp] theorem advancePc_status (s : State) : (advancePc s).status = s.status := rfl
@[simp] theorem advancePc_fault (s : State) : (advancePc s).fault = s.fault := rfl
@[simp] theorem advancePc_len (s : State) : (advancePc s).len = s.len := rfl
@[simp] theorem advancePc_imem (s : State) : (advancePc s).imem = s.imem := rfl
@[simp] theorem advancePc_dmem (s : State) : (advancePc s).dmem = s.dmem := rfl
@[simp] theorem advancePc_input (s : State) : (advancePc s).input = s.input := rfl
@[simp] theorem advancePc_output (s : State) : (advancePc s).output = s.output := rfl
@[simp] theorem advancePc_lstatus (s : State) : (advancePc s).lstatus = s.lstatus := rfl

/-! ## `pc <- t` -/

@[simp] theorem jumpTo_par (t : Operand) (s : State) : (jumpTo t s).par = s.par := rfl
@[simp] theorem jumpTo_acc (t : Operand) (s : State) : (jumpTo t s).acc = s.acc := rfl
@[simp] theorem jumpTo_pc (t : Operand) (s : State) : (jumpTo t s).pc = targetPc t := rfl
@[simp] theorem jumpTo_status (t : Operand) (s : State) : (jumpTo t s).status = s.status := rfl
@[simp] theorem jumpTo_fault (t : Operand) (s : State) : (jumpTo t s).fault = s.fault := rfl
@[simp] theorem jumpTo_len (t : Operand) (s : State) : (jumpTo t s).len = s.len := rfl
@[simp] theorem jumpTo_imem (t : Operand) (s : State) : (jumpTo t s).imem = s.imem := rfl
@[simp] theorem jumpTo_dmem (t : Operand) (s : State) : (jumpTo t s).dmem = s.dmem := rfl
@[simp] theorem jumpTo_input (t : Operand) (s : State) : (jumpTo t s).input = s.input := rfl
@[simp] theorem jumpTo_output (t : Operand) (s : State) : (jumpTo t s).output = s.output := rfl
@[simp] theorem jumpTo_lstatus (t : Operand) (s : State) : (jumpTo t s).lstatus = s.lstatus := rfl

/-! ## `STATUS <- Halted` -/

@[simp] theorem enterHalted_par (s : State) : (enterHalted s).par = s.par := rfl
@[simp] theorem enterHalted_acc (s : State) : (enterHalted s).acc = s.acc := rfl
@[simp] theorem enterHalted_pc (s : State) : (enterHalted s).pc = s.pc := rfl
@[simp] theorem enterHalted_status (s : State) : (enterHalted s).status = .halted := rfl
@[simp] theorem enterHalted_fault (s : State) : (enterHalted s).fault = s.fault := rfl
@[simp] theorem enterHalted_len (s : State) : (enterHalted s).len = s.len := rfl
@[simp] theorem enterHalted_imem (s : State) : (enterHalted s).imem = s.imem := rfl
@[simp] theorem enterHalted_dmem (s : State) : (enterHalted s).dmem = s.dmem := rfl
@[simp] theorem enterHalted_input (s : State) : (enterHalted s).input = s.input := rfl
@[simp] theorem enterHalted_output (s : State) : (enterHalted s).output = s.output := rfl
@[simp] theorem enterHalted_lstatus (s : State) : (enterHalted s).lstatus = s.lstatus := rfl

/-! ## `DMEM[a] <- v` -/

@[simp] theorem withData_par (a : Nat) (v : Value) (s : State) : (withData a v s).par = s.par := rfl
@[simp] theorem withData_acc (a : Nat) (v : Value) (s : State) : (withData a v s).acc = s.acc := rfl
@[simp] theorem withData_pc (a : Nat) (v : Value) (s : State) : (withData a v s).pc = s.pc := rfl
@[simp] theorem withData_status (a : Nat) (v : Value) (s : State) : (withData a v s).status = s.status := rfl
@[simp] theorem withData_fault (a : Nat) (v : Value) (s : State) : (withData a v s).fault = s.fault := rfl
@[simp] theorem withData_len (a : Nat) (v : Value) (s : State) : (withData a v s).len = s.len := rfl
@[simp] theorem withData_imem (a : Nat) (v : Value) (s : State) : (withData a v s).imem = s.imem := rfl
@[simp] theorem withData_dmem (a : Nat) (v : Value) (s : State) : (withData a v s).dmem = setCellOf s.par.defaultCell a v s.dmem := rfl
@[simp] theorem withData_input (a : Nat) (v : Value) (s : State) : (withData a v s).input = s.input := rfl
@[simp] theorem withData_output (a : Nat) (v : Value) (s : State) : (withData a v s).output = s.output := rfl
@[simp] theorem withData_lstatus (a : Nat) (v : Value) (s : State) : (withData a v s).lstatus = s.lstatus := rfl

/-! ## IN -/

@[simp] theorem withInput_par (vs : List Value) (s : State) : (withInput vs s).par = s.par := rfl
@[simp] theorem withInput_acc (vs : List Value) (s : State) : (withInput vs s).acc = s.acc := rfl
@[simp] theorem withInput_pc (vs : List Value) (s : State) : (withInput vs s).pc = s.pc := rfl
@[simp] theorem withInput_status (vs : List Value) (s : State) : (withInput vs s).status = s.status := rfl
@[simp] theorem withInput_fault (vs : List Value) (s : State) : (withInput vs s).fault = s.fault := rfl
@[simp] theorem withInput_len (vs : List Value) (s : State) : (withInput vs s).len = s.len := rfl
@[simp] theorem withInput_imem (vs : List Value) (s : State) : (withInput vs s).imem = s.imem := rfl
@[simp] theorem withInput_dmem (vs : List Value) (s : State) : (withInput vs s).dmem = s.dmem := rfl
@[simp] theorem withInput_input (vs : List Value) (s : State) : (withInput vs s).input = vs := rfl
@[simp] theorem withInput_output (vs : List Value) (s : State) : (withInput vs s).output = s.output := rfl
@[simp] theorem withInput_lstatus (vs : List Value) (s : State) : (withInput vs s).lstatus = s.lstatus := rfl

/-! ## `Out(f, v)` -/

@[simp] theorem emit_par (f : OutTag) (v : Value) (s : State) : (emit f v s).par = s.par := rfl
@[simp] theorem emit_acc (f : OutTag) (v : Value) (s : State) : (emit f v s).acc = s.acc := rfl
@[simp] theorem emit_pc (f : OutTag) (v : Value) (s : State) : (emit f v s).pc = s.pc := rfl
@[simp] theorem emit_status (f : OutTag) (v : Value) (s : State) : (emit f v s).status = s.status := rfl
@[simp] theorem emit_fault (f : OutTag) (v : Value) (s : State) : (emit f v s).fault = s.fault := rfl
@[simp] theorem emit_len (f : OutTag) (v : Value) (s : State) : (emit f v s).len = s.len := rfl
@[simp] theorem emit_imem (f : OutTag) (v : Value) (s : State) : (emit f v s).imem = s.imem := rfl
@[simp] theorem emit_dmem (f : OutTag) (v : Value) (s : State) : (emit f v s).dmem = s.dmem := rfl
@[simp] theorem emit_input (f : OutTag) (v : Value) (s : State) : (emit f v s).input = s.input := rfl
@[simp] theorem emit_output (f : OutTag) (v : Value) (s : State) : (emit f v s).output = s.output ++ [⟨f, v⟩] := rfl
@[simp] theorem emit_lstatus (f : OutTag) (v : Value) (s : State) : (emit f v s).lstatus = s.lstatus := rfl

/-! ## the host's append to IN -/

@[simp] theorem hostAppend_par (v : Value) (s : State) : (hostAppend v s).par = s.par := rfl
@[simp] theorem hostAppend_acc (v : Value) (s : State) : (hostAppend v s).acc = s.acc := rfl
@[simp] theorem hostAppend_pc (v : Value) (s : State) : (hostAppend v s).pc = s.pc := rfl
@[simp] theorem hostAppend_status (v : Value) (s : State) : (hostAppend v s).status = s.status := rfl
@[simp] theorem hostAppend_fault (v : Value) (s : State) : (hostAppend v s).fault = s.fault := rfl
@[simp] theorem hostAppend_len (v : Value) (s : State) : (hostAppend v s).len = s.len := rfl
@[simp] theorem hostAppend_imem (v : Value) (s : State) : (hostAppend v s).imem = s.imem := rfl
@[simp] theorem hostAppend_dmem (v : Value) (s : State) : (hostAppend v s).dmem = s.dmem := rfl
@[simp] theorem hostAppend_input (v : Value) (s : State) : (hostAppend v s).input = s.input ++ [v] := rfl
@[simp] theorem hostAppend_output (v : Value) (s : State) : (hostAppend v s).output = s.output := rfl
@[simp] theorem hostAppend_lstatus (v : Value) (s : State) : (hostAppend v s).lstatus = s.lstatus := rfl

/-! ## `raise Fault(r)` -/

@[simp] theorem raiseFault_par (r : FaultReason) (s : State) : (raiseFault r s).par = s.par := rfl
@[simp] theorem raiseFault_acc (r : FaultReason) (s : State) : (raiseFault r s).acc = s.acc := rfl
@[simp] theorem raiseFault_pc (r : FaultReason) (s : State) : (raiseFault r s).pc = s.pc := rfl
@[simp] theorem raiseFault_status (r : FaultReason) (s : State) : (raiseFault r s).status = .faulted := rfl
@[simp] theorem raiseFault_fault (r : FaultReason) (s : State) : (raiseFault r s).fault = r := rfl
@[simp] theorem raiseFault_len (r : FaultReason) (s : State) : (raiseFault r s).len = s.len := rfl
@[simp] theorem raiseFault_imem (r : FaultReason) (s : State) : (raiseFault r s).imem = s.imem := rfl
@[simp] theorem raiseFault_dmem (r : FaultReason) (s : State) : (raiseFault r s).dmem = s.dmem := rfl
@[simp] theorem raiseFault_input (r : FaultReason) (s : State) : (raiseFault r s).input = s.input := rfl
@[simp] theorem raiseFault_output (r : FaultReason) (s : State) : (raiseFault r s).output = s.output := rfl
@[simp] theorem raiseFault_lstatus (r : FaultReason) (s : State) : (raiseFault r s).lstatus = s.lstatus := rfl

/-! ## the loader's store -/

@[simp] theorem storeWord_par (a : Nat) (w : InstrWord) (s : State) : (storeWord a w s).par = s.par := rfl
@[simp] theorem storeWord_acc (a : Nat) (w : InstrWord) (s : State) : (storeWord a w s).acc = s.acc := rfl
@[simp] theorem storeWord_pc (a : Nat) (w : InstrWord) (s : State) : (storeWord a w s).pc = s.pc := rfl
@[simp] theorem storeWord_status (a : Nat) (w : InstrWord) (s : State) : (storeWord a w s).status = s.status := rfl
@[simp] theorem storeWord_fault (a : Nat) (w : InstrWord) (s : State) : (storeWord a w s).fault = s.fault := rfl
@[simp] theorem storeWord_len (a : Nat) (w : InstrWord) (s : State) : (storeWord a w s).len = s.len := rfl
@[simp] theorem storeWord_imem (a : Nat) (w : InstrWord) (s : State) : (storeWord a w s).imem = insertCell a w s.imem := rfl
@[simp] theorem storeWord_dmem (a : Nat) (w : InstrWord) (s : State) : (storeWord a w s).dmem = s.dmem := rfl
@[simp] theorem storeWord_input (a : Nat) (w : InstrWord) (s : State) : (storeWord a w s).input = s.input := rfl
@[simp] theorem storeWord_output (a : Nat) (w : InstrWord) (s : State) : (storeWord a w s).output = s.output := rfl
@[simp] theorem storeWord_lstatus (a : Nat) (w : InstrWord) (s : State) : (storeWord a w s).lstatus = s.lstatus := rfl

end Sys2Proof.Machine
end

