-- ==== Sys2Proof/Laws/Cells.lean ====
section
/-! SUPPORT. The laws of cells listed by index: a read after a write, and the canonical form. -/

namespace Sys2Proof.Machine

section Lists
variable {α : Type}

theorem lookupCell_insertCell_self (a : Nat) (v : α) (m : List (Nat × α)) :
    lookupCell a (insertCell a v m) = some v := by
  induction m with
  | nil => simp [insertCell, lookupCell]
  | cons c m ih =>
    obtain ⟨b, u⟩ := c
    simp only [insertCell]
    split
    · simp [lookupCell]
    · split
      · simp [lookupCell]
      · have : b ≠ a := by omega
        simp [lookupCell, this, ih]

theorem lookupCell_insertCell_other {a b : Nat} (h : b ≠ a) (v : α) (m : List (Nat × α)) :
    lookupCell b (insertCell a v m) = lookupCell b m := by
  induction m with
  | nil => simp [insertCell, lookupCell, Ne.symm h]
  | cons c m ih =>
    obtain ⟨c, u⟩ := c
    simp only [insertCell]
    split
    · simp [lookupCell, Ne.symm h]
    · split
      · subst a; simp [lookupCell, Ne.symm h]
      · simp only [lookupCell, ih]

theorem lookupCell_eraseCell_self (a : Nat) (m : List (Nat × α)) : lookupCell a (eraseCell a m) = none := by
  induction m with
  | nil => rfl
  | cons c m ih =>
    obtain ⟨b, u⟩ := c
    simp only [eraseCell]
    split <;> simp_all [lookupCell]

theorem lookupCell_eraseCell_other {a b : Nat} (h : b ≠ a) (m : List (Nat × α)) :
    lookupCell b (eraseCell a m) = lookupCell b m := by
  induction m with
  | nil => rfl
  | cons c m ih =>
    obtain ⟨c, u⟩ := c
    simp only [eraseCell, lookupCell]
    split
    · subst c; simp [Ne.symm h, ih]
    · simp only [lookupCell, ih]

theorem mem_insertCell {a : Nat} {v : α} {m : List (Nat × α)} {c : Nat × α} (h : c ∈ insertCell a v m) :
    c = (a, v) ∨ c ∈ m := by
  induction m with
  | nil => simpa [insertCell] using h
  | cons d m ih =>
    obtain ⟨b, u⟩ := d
    simp only [insertCell] at h
    split at h
    · simpa using h
    · split at h
      · rcases List.mem_cons.1 h with h | h
        · exact .inl h
        · exact .inr (List.mem_cons_of_mem _ h)
      · rcases List.mem_cons.1 h with h | h
        · exact .inr (by simp [h])
        · exact (ih h).imp id (List.mem_cons_of_mem _)

theorem mem_eraseCell {a : Nat} {m : List (Nat × α)} {c : Nat × α} (h : c ∈ eraseCell a m) : c ∈ m := by
  induction m with
  | nil => simp [eraseCell] at h
  | cons d m ih =>
    obtain ⟨b, u⟩ := d
    simp only [eraseCell] at h
    split at h
    · exact List.mem_cons_of_mem _ (ih h)
    · rcases List.mem_cons.1 h with h | h
      · simp [h]
      · exact List.mem_cons_of_mem _ (ih h)

theorem insertCell_rising {a : Nat} {v : α} {m : List (Nat × α)} (h : m.Pairwise (fun x y => x.1 < y.1)) :
    (insertCell a v m).Pairwise (fun x y => x.1 < y.1) := by
  induction m with
  | nil => simp [insertCell]
  | cons d m ih =>
    obtain ⟨b, u⟩ := d
    obtain ⟨hb, hm⟩ := List.pairwise_cons.1 h
    simp only [insertCell]
    split
    · rename_i hab
      refine List.pairwise_cons.2 ⟨fun c hc => ?_, h⟩
      rcases List.mem_cons.1 hc with rfl | hc
      · exact hab
      · exact Nat.lt_trans hab (hb c hc)
    · split
      · rename_i hab
        subst hab
        exact List.pairwise_cons.2 ⟨hb, hm⟩
      · refine List.pairwise_cons.2 ⟨fun c hc => ?_, ih hm⟩
        rcases mem_insertCell hc with rfl | hc
        · show b < a; omega
        · exact hb c hc

theorem eraseCell_rising {a : Nat} {m : List (Nat × α)} (h : m.Pairwise (fun x y => x.1 < y.1)) :
    (eraseCell a m).Pairwise (fun x y => x.1 < y.1) := by
  induction m with
  | nil => simp [eraseCell]
  | cons d m ih =>
    obtain ⟨b, u⟩ := d
    obtain ⟨hb, hm⟩ := List.pairwise_cons.1 h
    simp only [eraseCell]
    split
    · exact ih hm
    · exact List.pairwise_cons.2 ⟨fun c hc => hb c (mem_eraseCell hc), ih hm⟩

theorem not_mem_eraseCell {a : Nat} {u : α} {m : List (Nat × α)} : (a, u) ∉ eraseCell a m := by
  induction m with
  | nil => simp [eraseCell]
  | cons d m ih =>
    obtain ⟨b, w⟩ := d
    simp only [eraseCell]
    split
    · exact ih
    · rename_i hb
      simp [ih, Ne.symm hb]

end Lists

/-! ## The data plane -/

theorem cellOf_setCellOf_self (d : Value) (a : Nat) (v : Value) (m : Memory) : cellOf d a (setCellOf d a v m) = v := by
  unfold cellOf setCellOf
  split
  · rename_i h; simp [lookupCell_eraseCell_self, h]
  · simp [lookupCell_insertCell_self]

theorem cellOf_setCellOf_other (d : Value) {a b : Nat} (h : b ≠ a) (v : Value) (m : Memory) :
    cellOf d b (setCellOf d a v m) = cellOf d b m := by
  unfold cellOf setCellOf
  split
  · rw [lookupCell_eraseCell_other h]
  · rw [lookupCell_insertCell_other h]

/-- A write keeps the canonical form of the data plane. -/
theorem setCellOf_wf {p : Params} {a : Nat} {v : Value} {m : Memory} (ha : a < p.cap) (h : Memory.wf p m) :
    Memory.wf p (setCellOf p.defaultCell a v m) := by
  obtain ⟨hs, hc⟩ := h
  unfold setCellOf
  split
  · exact ⟨eraseCell_rising hs, fun c hm => hc c (mem_eraseCell hm)⟩
  · rename_i hv
    refine ⟨insertCell_rising hs, fun c hm => ?_⟩
    rcases mem_insertCell hm with rfl | hm
    · exact ⟨ha, hv⟩
    · exact hc c hm

/-- A store of the loader keeps the canonical form of the instruction plane. -/
theorem insertCell_imem_wf {p : Params} {a : Nat} {w : InstrWord} {m : InstrMemory} (ha : a < p.cap)
    (h : InstrMemory.wf p m) : InstrMemory.wf p (insertCell a w m) := by
  refine ⟨insertCell_rising h.1, fun c hm => ?_⟩
  rcases mem_insertCell hm with rfl | hm
  · exact ha
  · exact h.2 c hm

/-- The planes of a created state are in canonical form. -/
theorem created_planes_wf (p : Params) (q : List Value) :
    Memory.wf p (State.created p q).dmem ∧ InstrMemory.wf p (State.created p q).imem := by
  simp [State.created, Memory.wf, InstrMemory.wf]

/-- The memory of `State.reset` is in canonical form. -/
theorem reset_memory_wf : Memory.wf State.reset.par State.reset.dmem := by decide

/-- A created state's data cells all hold DEFAULT_CELL. -/
theorem dataCell_created (p : Params) (q : List Value) (a : Nat) : dataCell a (State.created p q) = p.defaultCell := rfl

end Sys2Proof.Machine
end

