-- ==== Sys2Proof/Laws/Ops.lean ====
section
/-! SUPPORT. One lemma per shared operation: everything it can do. The provers cite these and do not unfold the
operations. -/

namespace Sys2Proof.Machine

@[simp] theorem dataCell_withData_self (a : Nat) (v : Value) (s : State) : dataCell a (withData a v s) = v :=
  cellOf_setCellOf_self _ _ _ _

theorem dataCell_withData_other {a b : Nat} (h : b ≠ a) (v : Value) (s : State) :
    dataCell b (withData a v s) = dataCell b s := cellOf_setCellOf_other _ h _ _

/-- Two states with the same parameters and the same data plane hold the same data cells. -/
theorem dataCell_congr {s t : State} (hp : t.par = s.par) (hd : t.dmem = s.dmem) (b : Nat) :
    dataCell b t = dataCell b s := by simp [dataCell, hp, hd]

theorem memRead_of_lt {a : Nat} {s : State} (h : a < s.par.cap) : memRead a s = some (dataCell a s) := by
  simp [memRead, h]

theorem memRead_of_ge {a : Nat} {s : State} (h : s.par.cap ≤ a) : memRead a s = none := by
  simp [memRead, Nat.not_lt.2 h]

theorem memWrite_of_lt {a : Nat} {v : Value} {s : State} (h : a < s.par.cap) :
    memWrite a v s = some (withData a v s) := by simp [memWrite, h]

theorem memWrite_of_ge {a : Nat} {v : Value} {s : State} (h : s.par.cap ≤ a) : memWrite a v s = none := by
  simp [memWrite, Nat.not_lt.2 h]

/-! ## CheckAddr -/

theorem checkAddr_of_ge {a : Operand} {s : State} (h : s.len ≤ cellIndex a) (k : Answer) :
    checkAddr a s k = .next (raiseFault .addressOutOfRange s) := by simp [checkAddr, h]

theorem checkAddr_of_lt {a : Operand} {s : State} (h : cellIndex a < s.len) (k : Answer) :
    checkAddr a s k = k := by simp [checkAddr, Nat.not_le.2 h]

theorem checkAddr_next {a : Operand} {s t : State} {k : Answer} (h : checkAddr a s k = .next t) :
    (s.len ≤ cellIndex a ∧ t = raiseFault .addressOutOfRange s) ∨ (cellIndex a < s.len ∧ k = .next t) := by
  rcases Nat.lt_or_ge (cellIndex a) s.len with ha | ha
  · exact .inr ⟨ha, by rwa [checkAddr_of_lt ha] at h⟩
  · rw [checkAddr_of_ge ha] at h
    exact .inl ⟨ha, (Host.Outcome.next.inj h).symm⟩

/-! ## CheckAddr and MemRead -/

theorem withCell_of_lt {a : Operand} {s : State} (h : cellIndex a < s.len) (hc : cellIndex a < s.par.cap)
    (k : Value → Answer) : withCell a s k = k (dataCell (cellIndex a) s) := by
  simp [withCell, checkAddr_of_lt h, memRead_of_lt hc]

theorem withCell_of_ge {a : Operand} {s : State} (h : s.len ≤ cellIndex a) (k : Value → Answer) :
    withCell a s k = .next (raiseFault .addressOutOfRange s) := checkAddr_of_ge h _

theorem withCell_of_no_cell {a : Operand} {s : State} (h : cellIndex a < s.len) (hc : s.par.cap ≤ cellIndex a)
    (k : Value → Answer) : withCell a s k = .fault .noSuchCell := by
  simp [withCell, checkAddr_of_lt h, memRead_of_ge hc]

theorem withCell_next {a : Operand} {s t : State} {k : Value → Answer} (h : withCell a s k = .next t) :
    (s.len ≤ cellIndex a ∧ t = raiseFault .addressOutOfRange s) ∨
    (cellIndex a < s.len ∧ cellIndex a < s.par.cap ∧ k (dataCell (cellIndex a) s) = .next t) := by
  rcases Nat.lt_or_ge (cellIndex a) s.len with ha | ha
  · rcases Nat.lt_or_ge (cellIndex a) s.par.cap with hc | hc
    · exact .inr ⟨ha, hc, by rwa [withCell_of_lt ha hc] at h⟩
    · rw [withCell_of_no_cell ha hc] at h; cases h
  · rw [withCell_of_ge ha] at h
    exact .inl ⟨ha, (Host.Outcome.next.inj h).symm⟩

/-! ## MemWrite and the advance of the PC -/

theorem storeAndAdvance_of_lt {a : Operand} {s : State} (hc : cellIndex a < s.par.cap) (v : Value) :
    storeAndAdvance a v s = .next (advancePc (withData (cellIndex a) v s)) := by
  simp [storeAndAdvance, memWrite_of_lt hc]

theorem storeAndAdvance_of_no_cell {a : Operand} {s : State} (hc : s.par.cap ≤ cellIndex a) (v : Value) :
    storeAndAdvance a v s = .fault .noSuchCell := by simp [storeAndAdvance, memWrite_of_ge hc]

theorem storeAndAdvance_next {a : Operand} {v : Value} {s t : State} (h : storeAndAdvance a v s = .next t) :
    cellIndex a < s.par.cap ∧ t = advancePc (withData (cellIndex a) v s) := by
  rcases Nat.lt_or_ge (cellIndex a) s.par.cap with hc | hc
  · rw [storeAndAdvance_of_lt hc] at h
    exact ⟨hc, (Host.Outcome.next.inj h).symm⟩
  · rw [storeAndAdvance_of_no_cell hc] at h; cases h

/-! ## Writing the accumulator -/

theorem accAndAdvance_eq (v : Value) (s : State) : accAndAdvance v s = .next (advancePc (setAcc v s)) := rfl

theorem commitResult_of_fits {r : Int} (h : fits r) (s : State) :
    commitResult r s = .next (advancePc (setAcc (BitVec.ofInt 32 r) s)) := by
  simp only [commitResult, if_pos h, accAndAdvance_eq]

theorem commitResult_of_not_fits {r : Int} (h : ¬ fits r) (s : State) :
    commitResult r s = .next (raiseFault .arithmeticOverflow s) := by simp only [commitResult, if_neg h]

/-- A result that fits is written exactly. -/
theorem toInt_ofInt_of_fits {r : Int} (h : fits r) : (BitVec.ofInt 32 r).toInt = r := by
  simp only [fits, minValue, maxValue] at h
  rw [BitVec.toInt_ofInt, Int.bmod_def]
  norm_num
  split <;> omega

theorem commitResult_next {r : Int} {s t : State} (h : commitResult r s = .next t) :
    (¬ fits r ∧ t = raiseFault .arithmeticOverflow s) ∨
    (fits r ∧ t = advancePc (setAcc (BitVec.ofInt 32 r) s)) := by
  by_cases hr : fits r
  · rw [commitResult_of_fits hr] at h
    exact .inr ⟨hr, (Host.Outcome.next.inj h).symm⟩
  · rw [commitResult_of_not_fits hr] at h
    exact .inl ⟨hr, (Host.Outcome.next.inj h).symm⟩

/-! ## Branches -/

theorem branchIf_of_lt {taken : Prop} [Decidable taken] {t : Operand} {s : State} (h : cellIndex t < s.len) :
    branchIf taken t s = .next (if taken then jumpTo t s else advancePc s) := checkAddr_of_lt h _

theorem branchIf_of_ge {taken : Prop} [Decidable taken] {t : Operand} {s : State} (h : s.len ≤ cellIndex t) :
    branchIf taken t s = .next (raiseFault .addressOutOfRange s) := checkAddr_of_ge h _

theorem branchIf_next {taken : Prop} [Decidable taken] {a : Operand} {s t : State} (h : branchIf taken a s = .next t) :
    (s.len ≤ cellIndex a ∧ t = raiseFault .addressOutOfRange s) ∨
    (cellIndex a < s.len ∧ taken ∧ t = jumpTo a s) ∨ (cellIndex a < s.len ∧ ¬ taken ∧ t = advancePc s) := by
  rcases checkAddr_next h with h | ⟨ha, h⟩
  · exact .inl h
  · have h := (Host.Outcome.next.inj h).symm
    by_cases hb : taken
    · exact .inr (.inl ⟨ha, hb, by simpa [hb] using h⟩)
    · exact .inr (.inr ⟨ha, hb, by simpa [hb] using h⟩)

/-! ## IN -/

theorem takeInput_of_nil {s : State} (h : s.input = []) : takeInput s = none := by simp [takeInput, h]

theorem takeInput_of_cons {s : State} {v : Value} {rest : List Value} (h : s.input = v :: rest) :
    takeInput s = some (v, withInput rest s) := by simp [takeInput, h]

/-- The target of a branch, as a number. -/
@[simp] theorem targetPc_toNat (t : Operand) : (targetPc t).toNat = t.toNat := by
  have := t.isLt
  simp [targetPc, BitVec.toNat_setWidth]
  omega

/-- The immediate of SET, as a signed value: never negative. -/
@[simp] theorem zextValue_toInt (k : Operand) : (zextValue k).toInt = k.toNat := by
  have := k.isLt
  rw [zextValue, BitVec.toInt_eq_toNat_cond, BitVec.toNat_setWidth]
  have h1 : k.toNat % 2 ^ 32 = k.toNat := by omega
  rw [h1, if_pos (by omega)]

end Sys2Proof.Machine
end

