-- ==== Sys2Proof/Laws/Arithmetic.lean ====
section
/-! SUPPORT. The range of the exact results (spec/44_arithmetic.md rules R85, R86, R89, R91). -/

namespace Sys2Proof.Machine

/-- Every value fits (R7). -/
theorem value_fits (v : Value) : fits v.toInt := by
  have h1 := BitVec.toInt_lt (x := v)
  have h2 := BitVec.le_toInt (x := v)
  simp only [fits, minValue, maxValue]
  omega

/-- `tmod` is the remainder of the truncating division. -/
theorem tmod_eq (n d : Int) : tmod n d = Int.tmod n d := by rw [tmod, tdiv, Int.tmod_def]

/-- The remainder is smaller than the divisor. -/
theorem natAbs_tmod_lt (n : Int) {d : Int} (h : d ≠ 0) : (tmod n d).natAbs < d.natAbs := by
  rw [tmod_eq, Int.natAbs_tmod]
  exact Nat.mod_lt _ (by omega)

/-- A quotient fits but for MIN / -1 (R89). -/
theorem tdiv_fits {n d : Int} (hn : fits n) (hd : d ≠ 0) (h : ¬ (n = minValue ∧ d = -1)) : fits (tdiv n d) := by
  simp only [fits, minValue, maxValue] at *
  have h1 : (tdiv n d).natAbs = n.natAbs / d.natAbs := Int.natAbs_tdiv n d
  have h2 : n.natAbs / d.natAbs ≤ n.natAbs := Nat.div_le_self _ _
  by_cases hm : n = -2147483648
  · rcases Nat.lt_or_ge 1 d.natAbs with h3 | h3
    · have h4 : n.natAbs / d.natAbs ≤ n.natAbs / 2 := Nat.div_le_div_left h3 (by decide)
      omega
    · obtain rfl : d = 1 := by omega
      simp [tdiv, hm]
  · omega

/-- A remainder always fits (R91). -/
theorem tmod_fits {n d : Int} (hd : fits d) (h : d ≠ 0) : fits (tmod n d) := by
  have := natAbs_tmod_lt n h
  simp only [fits, minValue, maxValue] at *
  omega

end Sys2Proof.Machine
end

