-- ==== Sys2Proof/Laws/Decode.lean ====
section
/-! SUPPORT. The fields of a word. -/

namespace Sys2Proof

@[simp] theorem opcodeField_wordOf (c : Nat) (a : Operand) : opcodeField (wordOf c a) = BitVec.ofNat 8 c := by
  ext i hi
  simp only [opcodeField, wordOf, BitVec.getElem_extractLsb']
  rw [BitVec.getLsbD_append, if_neg (by omega), BitVec.getLsbD_eq_getElem (by omega)]
  congr 1
  omega

@[simp] theorem operandField_wordOf (c : Nat) (a : Operand) : operandField (wordOf c a) = a := by
  ext i hi
  simp only [operandField, wordOf, BitVec.getElem_extractLsb']
  rw [BitVec.getLsbD_append, if_pos (by omega), BitVec.getLsbD_eq_getElem (by omega)]
  congr 1
  omega

/-- A word is its two fields. -/
theorem append_fields (w : InstrWord) : opcodeField w ++ operandField w = w := by
  ext i hi
  rw [BitVec.getElem_append]
  split <;> simp only [opcodeField, operandField, BitVec.getElem_extractLsb'] <;>
    rw [BitVec.getLsbD_eq_getElem (by omega)] <;> congr 1 <;> omega

/-- A word is legal exactly when its opcode is in the table. -/
theorem legalWord_iff (w : InstrWord) : legalWord w = true ↔ (opcodeField w).toNat ∈ legalOpcodes := by
  simp [legalWord, opcodeField]

end Sys2Proof
end

