-- ==== Sys2Proof/Laws/Loader.lean ====
section
/-! SUPPORT. What the loader's loop leaves (spec/40_loader.md rules R57, R59 to R61, R64). -/

namespace Sys2Proof.Machine

/-- What every load leaves alone: "It writes nothing else: not DMEM, not ACC, PC or STATUS" (R55). -/
theorem loadFrom_frame (k : Nat) (ls : List ObjectLine) (s : State) :
    loadFrom k ls s = { s with
      imem := (loadFrom k ls s).imem, len := (loadFrom k ls s).len, lstatus := (loadFrom k ls s).lstatus } := by
  induction ls generalizing k s with
  | nil => rfl
  | cons l ls ih =>
    simp only [loadFrom]
    cases parseLine l with
    | none => rfl
    | some w => exact ih (k + 1) (storeWord k w s)

/-- A rejected line ends the load with InternalConsistency (R59, R60). -/
theorem loadFrom_of_rejected {ls : List ObjectLine} (h : ∃ l ∈ ls, parseLine l = none) (k : Nat) (s : State) :
    (loadFrom k ls s).lstatus = .failed .internalConsistency := by
  induction ls generalizing k s with
  | nil => simp at h
  | cons l ls ih =>
    simp only [loadFrom]
    cases hl : parseLine l with
    | none => rfl
    | some w =>
      refine ih ?_ _ _
      obtain ⟨l', hm, hl'⟩ := h
      rcases List.mem_cons.1 hm with rfl | hm
      · rw [hl] at hl'; cases hl'
      · exact ⟨l', hm, hl'⟩

/-- When every line is accepted, LEN counts them, LSTATUS is Done, and the cells below `k` are as they were (R61). -/
theorem loadFrom_of_accepted {ls : List ObjectLine} (h : ∀ l ∈ ls, (parseLine l).isSome) (k : Nat) (s : State) :
    (loadFrom k ls s).lstatus = .done ∧ (loadFrom k ls s).len = k + ls.length ∧
    ∀ j < k, lookupCell j (loadFrom k ls s).imem = lookupCell j s.imem := by
  induction ls generalizing k s with
  | nil => simp [loadFrom]
  | cons l ls ih =>
    obtain ⟨w, hw⟩ := Option.isSome_iff_exists.1 (h l (by simp))
    obtain ⟨h1, h2, h3⟩ := ih (fun l hl => h l (List.mem_cons_of_mem _ hl)) (k + 1) (storeWord k w s)
    simp only [loadFrom, hw]
    refine ⟨h1, by rw [h2, List.length_cons]; omega, fun j hj => ?_⟩
    rw [h3 j (by omega), storeWord_imem, lookupCell_insertCell_other (by omega)]

/-- When every line is accepted, line `j` stands at its positional index (R57). -/
theorem lookupCell_loadFrom {ls : List ObjectLine} (h : ∀ l ∈ ls, (parseLine l).isSome) (k : Nat) (s : State)
    {j : Nat} {l : ObjectLine} (hj : ls[j]? = some l) :
    lookupCell (k + j) (loadFrom k ls s).imem = parseLine l := by
  induction ls generalizing k s j with
  | nil => simp at hj
  | cons l' ls ih =>
    obtain ⟨w, hw⟩ := Option.isSome_iff_exists.1 (h l' (by simp))
    have hls : ∀ l ∈ ls, (parseLine l).isSome := fun l hl => h l (List.mem_cons_of_mem _ hl)
    simp only [loadFrom, hw]
    cases j with
    | zero =>
      simp only [List.getElem?_cons_zero, Option.some.injEq] at hj
      subst hj
      rw [(loadFrom_of_accepted hls (k + 1) (storeWord k w s)).2.2 (k + 0) (by omega), storeWord_imem, Nat.add_zero,
        lookupCell_insertCell_self, hw]
    | succ j =>
      rw [List.getElem?_cons_succ] at hj
      rw [← ih hls (k + 1) (storeWord k w s) hj]
      congr 1
      omega

/-- The loop keeps the canonical form of the instruction plane while the lines fit below CAP. -/
theorem loadFrom_imem_wf (k : Nat) (ls : List ObjectLine) (s : State) (hk : k + ls.length ≤ s.par.cap)
    (h : InstrMemory.wf s.par s.imem) : InstrMemory.wf s.par (loadFrom k ls s).imem := by
  induction ls generalizing k s with
  | nil => exact h
  | cons l ls ih =>
    rw [List.length_cons] at hk
    simp only [loadFrom]
    cases parseLine l with
    | none => exact h
    | some w =>
      have hw : InstrMemory.wf s.par (insertCell k w s.imem) := insertCell_imem_wf (by omega) h
      exact ih (k + 1) (storeWord k w s) (by rw [storeWord_par]; omega) hw

end Sys2Proof.Machine
end

