-- ==== Sys2Proof/Laws/PerInstr.lean ====
section
/-! SUPPORT. What holds of every instruction as syntax, one lemma per constructor. -/

namespace Sys2Proof.Laws.Encoding

/-- The word of an instruction holds its code and its operand, whole, and is legal (spec/30_encoding.md rules R41, R44). -/
def Statement (i : Instr) : Prop :=
  opcodeField (encode i) = BitVec.ofNat 8 (codeOf i) ∧ operandField (encode i) = operandOf i ∧
    legalWord (encode i) = true

theorem of_code {i : Instr} (h : (BitVec.ofNat 8 (codeOf i)).toNat ∈ legalOpcodes) : Statement i :=
  ⟨opcodeField_wordOf _ _, operandField_wordOf _ _, (legalWord_iff _).2 (by rw [encode, opcodeField_wordOf]; exact h)⟩

theorem read (a : Operand) : Statement (.read a) := of_code (by simp [codeOf, legalOpcodes])
theorem writ (a : Operand) : Statement (.writ a) := of_code (by simp [codeOf, legalOpcodes])
theorem prnt (a : Operand) : Statement (.prnt a) := of_code (by simp [codeOf, legalOpcodes])
theorem load (a : Operand) : Statement (.load a) := of_code (by simp [codeOf, legalOpcodes])
theorem stor (a : Operand) : Statement (.stor a) := of_code (by simp [codeOf, legalOpcodes])
theorem set (k : Operand) : Statement (.set k) := of_code (by simp [codeOf, legalOpcodes])
theorem add (a : Operand) : Statement (.add a) := of_code (by simp [codeOf, legalOpcodes])
theorem sub (a : Operand) : Statement (.sub a) := of_code (by simp [codeOf, legalOpcodes])
theorem div (a : Operand) : Statement (.div a) := of_code (by simp [codeOf, legalOpcodes])
theorem mult (a : Operand) : Statement (.mult a) := of_code (by simp [codeOf, legalOpcodes])
theorem mod (a : Operand) : Statement (.mod a) := of_code (by simp [codeOf, legalOpcodes])
theorem bran (t : Operand) : Statement (.bran t) := of_code (by simp [codeOf, legalOpcodes])
theorem brng (t : Operand) : Statement (.brng t) := of_code (by simp [codeOf, legalOpcodes])
theorem brzr (t : Operand) : Statement (.brzr t) := of_code (by simp [codeOf, legalOpcodes])
theorem halt (x : Operand) : Statement (.halt x) := of_code (by simp [codeOf, legalOpcodes])

end Sys2Proof.Laws.Encoding
end

