-- ==== Sys2Proof/Laws/Step.lean ====
section
/-! SUPPORT. What one instruction and one step can do, said once: every statement about a next state starts here. -/

namespace Sys2Proof.Machine

/-- The instructions that write the accumulator (spec/10_state.md rule R11). -/
def writesAcc : Instr → Bool
  | .load _ | .set _ | .add _ | .sub _ | .div _ | .mult _ | .mod _ => true
  | _ => false

/-- The next states of instruction `i` at state `s`. -/
inductive Effect (s : State) : Instr → State → Prop
  /-- A fault is taken. -/
  | fault (i : Instr) (r : FaultReason) (hr : r ≠ .none) : Effect s i (raiseFault r s)
  /-- READ waits for input. -/
  | stall (a : Operand) (ha : cellIndex a < s.len) (hin : s.input = []) : Effect s (.read a) s
  /-- READ stores the oldest input value. -/
  | input (a : Operand) (v : Value) (rest : List Value) (ha : cellIndex a < s.len) (hc : cellIndex a < s.par.cap)
      (hin : s.input = v :: rest) : Effect s (.read a) (advancePc (withData (cellIndex a) v (withInput rest s)))
  /-- WRIT outputs a cell. -/
  | raw (a : Operand) (ha : cellIndex a < s.len) :
      Effect s (.writ a) (advancePc (emit .raw (dataCell (cellIndex a) s) s))
  /-- PRNT outputs a cell. -/
  | display (a : Operand) (ha : cellIndex a < s.len) :
      Effect s (.prnt a) (advancePc (emit .display (dataCell (cellIndex a) s) s))
  /-- STOR stores the accumulator. -/
  | store (a : Operand) (ha : cellIndex a < s.len) (hc : cellIndex a < s.par.cap) :
      Effect s (.stor a) (advancePc (withData (cellIndex a) s.acc s))
  /-- The accumulator is written. -/
  | acc (i : Instr) (v : Value) (hi : writesAcc i = true) : Effect s i (advancePc (setAcc v s))
  /-- A branch is taken. -/
  | jump (i : Instr) (hi : operandClass i = .branch) (ht : cellIndex (operandOf i) < s.len) :
      Effect s i (jumpTo (operandOf i) s)
  /-- A branch falls through. -/
  | through (i : Instr) (hi : operandClass i = .branch) (ht : cellIndex (operandOf i) < s.len) :
      Effect s i (advancePc s)
  /-- HALT. -/
  | halt (x : Operand) : Effect s (.halt x) (advancePc (enterHalted s))

section Effects
variable {s t : State}

theorem withCell_effect {i : Instr} {a : Operand} {k : Value → Answer} (h : withCell a s k = .next t)
    (hk : cellIndex a < s.len → cellIndex a < s.par.cap → k (dataCell (cellIndex a) s) = .next t → Effect s i t) :
    Effect s i t := by
  rcases withCell_next h with ⟨-, rfl⟩ | ⟨ha, hc, h⟩
  · exact .fault _ _ (by decide)
  · exact hk ha hc h

theorem commitResult_effect {i : Instr} (hi : writesAcc i = true) {r : Int} (h : commitResult r s = .next t) :
    Effect s i t := by
  rcases commitResult_next h with ⟨-, rfl⟩ | ⟨-, rfl⟩
  · exact .fault _ _ (by decide)
  · exact .acc _ _ hi

theorem branchIf_effect {i : Instr} {taken : Prop} [Decidable taken] (hi : operandClass i = .branch)
    (h : branchIf taken (operandOf i) s = .next t) : Effect s i t := by
  rcases branchIf_next h with ⟨-, rfl⟩ | ⟨ha, -, rfl⟩ | ⟨ha, -, rfl⟩
  · exact .fault _ _ (by decide)
  · exact .jump _ hi ha
  · exact .through _ hi ha

/-- Everything an instruction can do when it answers a next state. -/
theorem exec_effect {i : Instr} (h : exec i s = .next t) : Effect s i t := by
  cases i with
  | read a =>
    rcases checkAddr_next h with ⟨-, rfl⟩ | ⟨ha, h⟩
    · exact .fault _ _ (by decide)
    · cases hin : s.input with
      | nil =>
        rw [takeInput_of_nil hin] at h
        cases h
        exact .stall a ha hin
      | cons v rest =>
        rw [takeInput_of_cons hin] at h
        obtain ⟨hc, rfl⟩ := storeAndAdvance_next h
        exact .input a v rest ha hc hin
  | writ a => exact withCell_effect h fun ha _ h => by cases h; exact .raw a ha
  | prnt a => exact withCell_effect h fun ha _ h => by cases h; exact .display a ha
  | load a => exact withCell_effect h fun _ _ h => by cases h; exact .acc _ _ rfl
  | stor a =>
    rcases checkAddr_next h with ⟨-, rfl⟩ | ⟨ha, h⟩
    · exact .fault _ _ (by decide)
    · obtain ⟨hc, rfl⟩ := storeAndAdvance_next h
      exact .store a ha hc
  | set k => cases h; exact .acc _ _ rfl
  | add a => exact withCell_effect h fun _ _ h => commitResult_effect rfl h
  | sub a => exact withCell_effect h fun _ _ h => commitResult_effect rfl h
  | div a =>
    refine withCell_effect h fun _ _ h => ?_
    split at h
    · cases h; exact .fault _ _ (by decide)
    · exact commitResult_effect rfl h
  | mult a => exact withCell_effect h fun _ _ h => commitResult_effect rfl h
  | mod a =>
    refine withCell_effect h fun _ _ h => ?_
    split at h
    · cases h; exact .fault _ _ (by decide)
    · cases h; exact .acc _ _ rfl
  | bran a => exact branchIf_effect (i := .bran a) rfl h
  | brng a => exact branchIf_effect (i := .brng a) rfl h
  | brzr a => exact branchIf_effect (i := .brzr a) rfl h
  | halt x => cases h; exact .halt x

/-- When the fetch gives an instruction (spec/41_engine_cycle.md rules R66, R67). -/
theorem fetchDecode_inr {i : Instr} : fetchDecode s = .inr i ↔
    s.pc.toNat < s.par.cap ∧ s.pc.toNat < s.len ∧ decode (fetchWord s) = .instr i := by
  unfold fetchDecode
  split
  · simp; omega
  · split
    · simp; omega
    · cases decode (fetchWord s) <;> simp
      exact ⟨fun h => ⟨by omega, by omega, h⟩, fun h => h.2.2⟩

/-- When the fetch gives a fault, and which (R66, R67, R109). -/
theorem fetchDecode_inl {r : FaultReason} : fetchDecode s = .inl r ↔
    (s.par.cap ≤ s.pc.toNat ∧ r = .addressOutOfRange) ∨
    (s.pc.toNat < s.par.cap ∧ s.len ≤ s.pc.toNat ∧ r = .missingHalt) ∨
    (s.pc.toNat < s.par.cap ∧ s.pc.toNat < s.len ∧ r = .illegalOpcode ∧ ∃ n, decode (fetchWord s) = .illegal n) := by
  unfold fetchDecode
  split
  · rename_i h; simp [h, Nat.not_lt.2 h, eq_comm]
  · rename_i h
    split
    · rename_i h'; simp [h, h', Nat.not_lt.2 h', Nat.not_le.1 h, eq_comm]
    · rename_i h'
      cases hd : decode (fetchWord s) <;> simp [h, h', Nat.not_le.1 h, Nat.not_le.1 h', eq_comm]

/-- No fetch fault is None. -/
theorem fetchDecode_inl_ne_none {r : FaultReason} (h : fetchDecode s = .inl r) : r ≠ .none := by
  rcases fetchDecode_inl.1 h with ⟨-, rfl⟩ | ⟨-, -, rfl⟩ | ⟨-, -, rfl, -⟩ <;> decide

theorem step_of_disabled (h : ¬ stepEnabled s) : step s = .next s := by rw [step, if_neg h]

theorem step_of_fault {r : FaultReason} (he : stepEnabled s) (h : fetchDecode s = .inl r) :
    step s = .next (raiseFault r s) := by rw [step, if_pos he, h]

theorem step_of_instr {i : Instr} (he : stepEnabled s) (h : fetchDecode s = .inr i) : step s = exec i s := by
  rw [step, if_pos he, h]

/-- Everything a step can do when it answers a next state. -/
theorem step_next (h : step s = .next t) :
    (¬ stepEnabled s ∧ t = s) ∨
    (stepEnabled s ∧ ∃ r, r ≠ .none ∧ fetchDecode s = .inl r ∧ t = raiseFault r s) ∨
    (stepEnabled s ∧ ∃ i, fetchDecode s = .inr i ∧ Effect s i t) := by
  by_cases he : stepEnabled s
  · cases hf : fetchDecode s with
    | inl r =>
      rw [step_of_fault he hf] at h
      exact .inr (.inl ⟨he, r, fetchDecode_inl_ne_none hf, rfl, (Host.Outcome.next.inj h).symm⟩)
    | inr i =>
      rw [step_of_instr he hf] at h
      exact .inr (.inr ⟨he, i, rfl, exec_effect h⟩)
  · rw [step_of_disabled he] at h
    exact .inl ⟨he, (Host.Outcome.next.inj h).symm⟩

end Effects

/-! ## A word placed for the next fetch -/

theorem fetchDecode_placeNextWord {s : State} (hc : 1 ≤ s.par.cap) (w : InstrWord) :
    fetchDecode (placeNextWord w s) = match decode w with | .illegal _ => .inl .illegalOpcode | .instr i => .inr i := by
  have hpc : (placeNextWord w s).pc.toNat < s.par.cap := by
    simp only [placeNextWord]
    split
    · assumption
    · exact hc
  have hlen : (placeNextWord w s).pc.toNat < (placeNextWord w s).len := by simp only [placeNextWord]; omega
  have hw : fetchWord (placeNextWord w s) = w := by
    simp [fetchWord, instrCell, placeNextWord, lookupCell_insertCell_self]
  have hpar : (placeNextWord w s).par = s.par := rfl
  cases hd : decode w <;> simp only [fetchDecode, hpar, hw, hd] <;> rw [if_neg (by omega), if_neg (by omega)]

/-- The very next step after `withFetchWord` runs the instruction placed. -/
theorem step_withFetchWord {s : State} (hc : 1 ≤ s.par.cap) {n w : Nat} {i : Instr}
    (h : decode (BitVec.ofNat 24 (w % 2 ^ n)) = .instr i) :
    step (s.withFetchWord n w) = exec i (s.withFetchWord n w) :=
  step_of_instr ⟨rfl, rfl⟩ (by rw [State.withFetchWord, fetchDecode_placeNextWord hc, h])

end Sys2Proof.Machine
end

