-- ==== Sys2Proof/Laws/Run.lean ====
section
/-! SUPPORT. Runs of several steps, and what the text form of an instruction can spell. -/

namespace Sys2Proof.Machine

theorem runSteps_zero (s : State) : runSteps 0 s = .next s := rfl

theorem runSteps_succ {s t : State} (h : step s = .next t) (k : Nat) : runSteps (k + 1) s = runSteps k t := by
  rw [runSteps, h]

/-- A run of at least one step that answers a next state begins with a step that does. -/
theorem runSteps_succ_next {s u : State} {k : Nat} (h : runSteps (k + 1) s = .next u) :
    ∃ t, step s = .next t ∧ runSteps k t = .next u := by
  rw [runSteps] at h
  split at h
  · rename_i t ht; exact ⟨t, ht, h⟩
  · cases h
  · cases h

/-- What every step keeps, a run keeps. -/
theorem runSteps_keeps {P : State → Prop} (hP : ∀ s t, P s → step s = .next t → P t) {s t : State} {k : Nat}
    (hs : P s) (h : runSteps k s = .next t) : P t := by
  induction k generalizing s with
  | zero => cases h; exact hs
  | succ k ih =>
    obtain ⟨u, hu, h⟩ := runSteps_succ_next h
    exact ih (hP s u hs hu) h

/-- The host's run, one step at a time. -/
theorem host_run_next (M : Host.Core) (k : Nat) {s t : M.State} (h : M.step s = .next t) :
    M.run (k + 1) s = M.run k t := by rw [Host.Core.run, h]

theorem host_run_fault (M : Host.Core) (k : Nat) {s : M.State} {r : M.Fault} (h : M.step s = .fault r) :
    M.run (k + 1) s = .fault r := by rw [Host.Core.run, h]

theorem host_run_refused (M : Host.Core) (k : Nat) {s : M.State} {r : M.Refusal} (h : M.step s = .refused r) :
    M.run (k + 1) s = .refused r := by rw [Host.Core.run, h]

/-- `runSteps` is the host's run of this machine. -/
theorem core_run_eq (k : Nat) (s : State) : Host.Core.run Sys2Proof.core k s = runSteps k s := by
  induction k generalizing s with
  | zero => rfl
  | succ k ih =>
    cases h : step s with
    | next t => exact (host_run_next core k h).trans ((ih t).trans (runSteps_succ h k).symm)
    | fault r => exact (host_run_fault core k h).trans (by rw [runSteps, h]; rfl)
    | refused r => exact (host_run_refused core k h).trans (by rw [runSteps, h]; rfl)

/-- The operands the text form can spell (spec/30_encoding.md rules R42, R54). -/
theorem spellable_iff (i : Instr) : spellable i = true ↔ (operandOf i).toNat < 10 ^ literalBound (codeOf i) := by
  have h2 : ∀ n : Nat, n ≤ 10 ^ 2 - 1 ↔ n < 10 ^ 2 := fun n => by omega
  have h4 : ∀ n : Nat, n ≤ 10 ^ 4 - 1 ↔ n < 10 ^ 4 := fun n => by omega
  cases i with
  | set k => exact decide_eq_true_iff.trans (h4 _)
  | _ a => exact decide_eq_true_iff.trans (h2 _)

end Sys2Proof.Machine
end

