-- ==== Sys2Proof/Tests/Slice0.lean ====
section
/-! SUPPORT. Tests and witnesses. A test's expected result is a vector of spec/95_test_vectors.md, named in its comment, or
is computed by hand from the rule named there. `witness_X` shows, for each clause of the statement X that has hypotheses, a
concrete state and operands that meet them; its values stand at the ends of the clause's range. -/

namespace Sys2Proof.Tests

open Sys2Proof Sys2Proof.Machine

/-- The next state, if the answer is one. -/
def nextOf : Answer → Option State
  | .next s => some s
  | .fault _ => none
  | .refused _ => none

/-- The model's own stop, if the answer is one. -/
def stopOf : Answer → Option Fault
  | .fault r => some r
  | .next _ => none
  | .refused _ => none

/-- CAP = 100, DEFAULT_CELL = 0, loaded and Running at PC 0, with the given LEN, ACC and data cells. -/
def machine (len : Nat) (acc : Value) (cells : Memory) : State :=
  { State.created Params.vectors [] with acc := acc, len := len, dmem := cells, lstatus := .done }

/-- The same machine at another PC. -/
def machineAt (pc : ProgramCounter) (len : Nat) (acc : Value) (cells : Memory) : State :=
  { machine len acc cells with pc := pc }

/-- The machine with the word at its PC. -/
def withWord (w : InstrWord) (s : State) : State := storeWord s.pc.toNat w s

/-- ACC, PC, STATUS and FAULT after an instruction. -/
def core4 (x : Answer) : Option (Value × ProgramCounter × RunStatus × FaultReason) :=
  (nextOf x).map fun t => (t.acc, t.pc, t.status, t.fault)

/-! ## Well-formedness: an ill-formed term for each check -/

/-- Opcode 43 is none of the 15 (V-E9). -/
theorem test_legalWord_refuses : legalWord 0x2B0000#24 = false ∧ legalWord 0x2A0000#24 = true := by decide

/-- Two digits for every code but 22, which has four (R54). -/
theorem test_spellable_refuses : spellable (.load 100#16) = false ∧ spellable (.load 99#16) = true ∧
    spellable (.set 10000#16) = false ∧ spellable (.set 9999#16) = true := by decide

/-! ## Decoding: each constructor by a word written bit by bit from its row's encoding (R41, R44): eight opcode bits, then
sixteen operand bits -/

theorem test_decode_read : decode 0b00001010_0000000000000101#24 = .instr (.read 5#16) := by decide
theorem test_decode_writ : decode 0b00001011_1000000000000001#24 = .instr (.writ 32769#16) := by decide
theorem test_decode_prnt : decode 0b00001100_0000000011111111#24 = .instr (.prnt 255#16) := by decide
theorem test_decode_load : decode 0b00010100_0000000100000000#24 = .instr (.load 256#16) := by decide
theorem test_decode_stor : decode 0b00010101_0000000000000011#24 = .instr (.stor 3#16) := by decide
theorem test_decode_set : decode 0b00010110_0010011100001111#24 = .instr (.set 9999#16) := by decide
theorem test_decode_add : decode 0b00011110_0000000000000001#24 = .instr (.add 1#16) := by decide
theorem test_decode_sub : decode 0b00011111_0000000000000111#24 = .instr (.sub 7#16) := by decide
theorem test_decode_div : decode 0b00100000_0000000000000010#24 = .instr (.div 2#16) := by decide
theorem test_decode_mult : decode 0b00100001_1111111111111111#24 = .instr (.mult 65535#16) := by decide
theorem test_decode_mod : decode 0b00100010_0100000000000000#24 = .instr (.mod 16384#16) := by decide
theorem test_decode_bran : decode 0b00101000_0000000000000101#24 = .instr (.bran 5#16) := by decide
theorem test_decode_brng : decode 0b00101001_0000000000000100#24 = .instr (.brng 4#16) := by decide
theorem test_decode_brzr : decode 0b00101010_0000000001100011#24 = .instr (.brzr 99#16) := by decide
theorem test_decode_halt : decode 0b01100011_1010101111001101#24 = .instr (.halt 0xABCD#16) := by decide

/-- V-E8 to V-E10. -/
theorem test_decode_illegal :
    [0x000000#24, 0x2B0000#24, 0x170000#24, 0x0D0000#24, 0x230000#24, 0x640000#24, 0xFF0000#24].map decode =
    [.illegal 0, .illegal 43, .illegal 23, .illegal 13, .illegal 35, .illegal 100, .illegal 255] := by decide

/-- The 15 words of the table with operand 0: each decodes, as the host numbers bits, and is the first instruction that
runs after reset once it is placed there. -/
theorem test_every_row_runs_first :
    ([0x0A, 0x0B, 0x0C, 0x14, 0x15, 0x16, 0x1E, 0x1F, 0x20, 0x21, 0x22, 0x28, 0x29, 0x2A, 0x63].all fun c =>
      match decodeTableWord 24 (c * 65536) with
      | some i => decide (nextOf (step (State.reset.withFetchWord 24 (c * 65536))) =
          nextOf (exec i (State.reset.withFetchWord 24 (c * 65536))) ∧
          nextOf (step (State.reset.withFetchWord 24 (c * 65536))) ≠ none)
      | none => false) = true := by decide

/-- An opcode that is none of the 15 is no instruction, and one with a 25th bit is no word. -/
theorem test_table_word_refuses : decodeTableWord 24 0x2B0000 = none ∧ decodeTableWord 32 0x10A0000 = none := by decide

/-! ## The text form and the loader (spec/40_loader.md) -/

/-- V-E1 to V-E4. -/
theorem test_object_lines :
    objectLine (.read 0#16) = ['1', '0', '0', '0'] ∧ objectLine (.set 9999#16) = ['2', '2', '9', '9', '9', '9'] ∧
    objectLine (.brzr 99#16) = ['4', '2', '9', '9'] ∧ objectLine (.halt 0#16) = ['9', '9', '0', '0'] := by decide

/-- V-L1. -/
theorem test_load_three_lines :
    (fun t : State => (t.lstatus, t.len, t.imem))
      (startRun Params.vectors [] [['2', '2', '0', '0', '0', '5'], ['1', '2', '0', '0'], ['9', '9', '0', '0']]) =
    (.done, 3, [(0, 0x160005#24), (1, 0x0C0000#24), (2, 0x630000#24)]) := by decide

/-- V-L2 and the first step after it. -/
theorem test_load_nothing :
    (startRun Params.vectors [] []).lstatus = .done ∧ (startRun Params.vectors [] []).len = 0 ∧
    core4 (step (startRun Params.vectors [] [])) = some (0#32, 0#17, .faulted, .missingHalt) := by decide

/-- V-L5 to V-L10: a bad code (43, 05), no operand digit, a character that is no digit, a literal too long. -/
theorem test_rejected_lines :
    [['4', '3', '0', '0'], ['0', '5', '0', '0'], ['9', '9'], ['2', '0', ' ', '0'], ['2', '0', '-', '1'],
      ['2', 'O', '0', '0'], ['2', '0', '0', '0', '5'], ['2', '2', '0', '0', '0', '0', '5']].map parseLine =
    [none, none, none, none, none, none, none, none] := by decide

/-- V-L11. -/
theorem test_short_literals :
    [['2', '2', '5'], ['2', '0', '9'], ['9', '9', '0']].map parseLine =
    [some 0x160005#24, some 0x140009#24, some 0x630000#24] := by decide

/-- V-L5 as a load, and V-L4 and V-L13 at CAP = 1: capacity is checked first. -/
theorem test_failed_loads :
    (startRun Params.vectors [] [['2', '0', '0', '0'], ['4', '3', '0', '0']]).lstatus = .failed .internalConsistency ∧
    startRun { cap := 1, defaultCell := 0#32 } [] [['0', '5', '0', '0'], ['9', '9', '0', '0']] =
      { State.created { cap := 1, defaultCell := 0#32 } [] with lstatus := .failed .programTooLarge } := by decide

/-! ## Fetch (spec/41_engine_cycle.md) -/

/-- V-C2 and the second step of V-C3: at LEN = CAP the capacity check comes first. -/
theorem test_fetch_past_the_end :
    core4 (step (machineAt 1#17 1 6#32 [])) = some (6#32, 1#17, .faulted, .missingHalt) ∧
    core4 (step (machineAt 100#17 100 1#32 [])) = some (1#32, 100#17, .faulted, .addressOutOfRange) := by decide

/-- V-C4 and V-C5: decoding precedes the operand check. -/
theorem test_fetch_illegal :
    core4 (step (withWord 0x2B0000#24 (machine 2 0#32 []))) = some (0#32, 0#17, .faulted, .illegalOpcode) ∧
    core4 (step (withWord 0x2B004D#24 (machine 2 0#32 []))) = some (0#32, 0#17, .faulted, .illegalOpcode) := by decide

/-- V-C6. -/
theorem test_no_step_when_not_enabled :
    nextOf (step { machine 1 0#32 [] with status := .halted }) = some { machine 1 0#32 [] with status := .halted } ∧
    nextOf (step { machine 1 0#32 [] with lstatus := .failed .programTooLarge }) =
      some { machine 1 0#32 [] with lstatus := .failed .programTooLarge } := by decide

/-! ## The instructions, at most two tests each -/

/-- V-I1, with a source that has more than one value. -/
theorem test_read_stores :
    (nextOf (exec (.read 2#16) { machine 4 0#32 [] with input := [42#32, 7#32] })).map
      (fun t => (t.dmem, t.input, t.pc, t.acc)) = some ([(2, 42#32)], [7#32], 1#17, 0#32) := by decide

/-- V-I5 and V-I3: the bound check comes before the wait, and the wait changes nothing. -/
theorem test_read_without_input :
    core4 (exec (.read 4#16) (machine 4 0#32 [])) = some (0#32, 0#17, .faulted, .addressOutOfRange) ∧
    nextOf (exec (.read 2#16) (machine 4 0#32 [])) = some (machine 4 0#32 []) := by decide

/-- V-I6. -/
theorem test_writ_emits :
    (nextOf (exec (.writ 2#16) (machineAt 1#17 4 0#32 [(2, -9#32)]))).map (fun t => (t.output, t.pc)) =
    some ([⟨.raw, -9#32⟩], 2#17) := by decide

/-- V-I11: the bound is LEN, not CAP. -/
theorem test_writ_bound :
    (nextOf (exec (.writ 4#16) (machineAt 1#17 4 0#32 []))).map (fun t => (t.output, t.pc, t.fault)) =
    some ([], 1#17, .addressOutOfRange) := by decide

/-- V-I9: the cell, not the accumulator. -/
theorem test_prnt_is_not_the_accumulator :
    (nextOf (exec (.prnt 0#16) (machineAt 1#17 4 5#32 []))).map (fun t => (t.output, t.pc)) =
    some ([⟨.display, 0#32⟩], 2#17) := by decide

/-- V-I8, after an older event. -/
theorem test_prnt_appends :
    (nextOf (exec (.prnt 0#16) { machineAt 1#17 4 0#32 [(0, 5#32)] with output := [⟨.raw, 1#32⟩] })).map
      (fun t => t.output) = some [⟨.raw, 1#32⟩, ⟨.display, 5#32⟩] := by decide

/-- V-T1 and V-T2. -/
theorem test_load_copies :
    core4 (exec (.load 1#16) (machine 4 9#32 [(1, -17#32)])) = some (-17#32, 1#17, .running, .none) ∧
    core4 (exec (.load 0#16) (machine 4 9#32 [(1, -17#32)])) = some (0#32, 1#17, .running, .none) := by decide

/-- V-T4. -/
theorem test_stor_writes :
    (nextOf (exec (.stor 3#16) (machine 4 (-3#32) [(1, 8#32)]))).map (fun t => (t.dmem, t.acc, t.pc)) =
    some ([(1, 8#32), (3, -3#32)], -3#32, 1#17) := by decide

/-- V-T9: a store to index 0 does not change the instruction there; and V-T5. -/
theorem test_stor_planes :
    (nextOf (step (withWord 0x150000#24 (machine 4 77#32 [])))).map (fun t => (t.dmem, instrCell 0 t)) =
      some ([(0, 77#32)], 0x150000#24) ∧
    core4 (exec (.stor 65535#16) (machine 4 1#32 [])) = some (1#32, 0#17, .faulted, .addressOutOfRange) := by decide

/-- V-T8 and V-T7: zero extension, no bound check. -/
theorem test_set_zero_extends :
    (core4 (exec (.set 65535#16) (machine 4 0#32 []))).map (fun x => x.1.toInt) = some 65535 ∧
    core4 (exec (.set 9999#16) (machine 4 (-1#32) [])) = some (9999#32, 1#17, .running, .none) := by decide

/-- V-A1, V-A4. -/
theorem test_add_exact :
    core4 (exec (.add 1#16) (machine 4 7#32 [(1, -3#32)])) = some (4#32, 1#17, .running, .none) ∧
    core4 (exec (.add 1#16) (machine 4 2147483647#32 [(1, 2147483648#32)])) = some (-1#32, 1#17, .running, .none) := by
  decide

/-- V-A2, V-A3. -/
theorem test_add_overflow :
    core4 (exec (.add 1#16) (machine 4 2147483647#32 [(1, 1#32)])) =
      some (2147483647#32, 0#17, .faulted, .arithmeticOverflow) ∧
    core4 (exec (.add 1#16) (machine 4 2147483648#32 [(1, -1#32)])) =
      some (2147483648#32, 0#17, .faulted, .arithmeticOverflow) := by decide

/-- V-A5: accumulator minus cell. -/
theorem test_sub_order :
    core4 (exec (.sub 1#16) (machine 4 3#32 [(1, 1#32)])) = some (2#32, 1#17, .running, .none) := by decide

/-- V-A6, V-A7. -/
theorem test_sub_overflow :
    core4 (exec (.sub 1#16) (machine 4 0#32 [(1, 2147483648#32)])) = some (0#32, 0#17, .faulted, .arithmeticOverflow) ∧
    core4 (exec (.sub 1#16) (machine 4 2147483648#32 [(1, 1#32)])) =
      some (2147483648#32, 0#17, .faulted, .arithmeticOverflow) := by decide

/-- V-A9 to V-A11: toward zero at every sign. -/
theorem test_div_truncates :
    [((-7#32 : Value), (2#32 : Value)), (7#32, -2#32), (-7#32, -2#32)].map
      (fun x => core4 (exec (.div 1#16) (machine 4 x.1 [(1, x.2)]))) =
    [some (-3#32, 1#17, .running, .none), some (-3#32, 1#17, .running, .none), some (3#32, 1#17, .running, .none)] := by
  decide

/-- V-A14, V-A15: the zero check comes before the overflow check. -/
theorem test_div_faults :
    core4 (exec (.div 1#16) (machine 4 2147483648#32 [(1, -1#32)])) =
      some (2147483648#32, 0#17, .faulted, .arithmeticOverflow) ∧
    core4 (exec (.div 1#16) (machine 4 2147483648#32 [])) =
      some (2147483648#32, 0#17, .faulted, .divisionByZero) := by decide

/-- V-A18: the product must fit. -/
theorem test_mult_overflow :
    core4 (exec (.mult 1#16) (machine 4 65536#32 [(1, 32768#32)])) =
      some (65536#32, 0#17, .faulted, .arithmeticOverflow) := by decide

/-- V-A17, V-A20: a product of MIN. -/
theorem test_mult_exact :
    core4 (exec (.mult 1#16) (machine 4 (-6#32) [(1, 7#32)])) = some (-42#32, 1#17, .running, .none) ∧
    core4 (exec (.mult 1#16) (machine 4 (-65536#32) [(1, 32768#32)])) =
      some (2147483648#32, 1#17, .running, .none) := by decide

/-- V-A23 to V-A25: the sign of the dividend. -/
theorem test_mod_signs :
    [((-7#32 : Value), (2#32 : Value)), (7#32, -2#32), (-7#32, -2#32)].map
      (fun x => core4 (exec (.mod 1#16) (machine 4 x.1 [(1, x.2)]))) =
    [some (-1#32, 1#17, .running, .none), some (1#32, 1#17, .running, .none), some (-1#32, 1#17, .running, .none)] := by
  decide

/-- V-A27, V-A26. -/
theorem test_mod_corners :
    core4 (exec (.mod 1#16) (machine 4 2147483648#32 [(1, -1#32)])) = some (0#32, 1#17, .running, .none) ∧
    core4 (exec (.mod 1#16) (machine 4 7#32 [])) = some (7#32, 0#17, .faulted, .divisionByZero) := by decide

/-- V-B1, V-B5. -/
theorem test_bran :
    core4 (exec (.bran 3#16) (machineAt 8#17 10 0#32 [])) = some (0#32, 3#17, .running, .none) ∧
    core4 (exec (.bran 10#16) (machineAt 1#17 10 0#32 [])) = some (0#32, 1#17, .faulted, .addressOutOfRange) := by decide

/-- V-B2, V-B3. -/
theorem test_brng :
    core4 (exec (.brng 4#16) (machineAt 2#17 10 (-5#32) [])) = some (-5#32, 4#17, .running, .none) ∧
    core4 (exec (.brng 4#16) (machineAt 2#17 10 0#32 [])) = some (0#32, 3#17, .running, .none) := by decide

/-- V-B6: the target is checked although the branch would not be taken. -/
theorem test_brng_checks_anyway :
    core4 (exec (.brng 10#16) (machineAt 2#17 10 5#32 [])) = some (5#32, 2#17, .faulted, .addressOutOfRange) := by decide

/-- V-B7, V-B9. -/
theorem test_brzr :
    core4 (exec (.brzr 9#16) (machineAt 4#17 10 0#32 [])) = some (0#32, 9#17, .running, .none) ∧
    core4 (exec (.brzr 9#16) (machineAt 4#17 10 (-1#32) [])) = some (-1#32, 5#17, .running, .none) := by decide

/-- V-B12: no bound check, the PC advanced to LEN. -/
theorem test_halt :
    core4 (exec (.halt 12345#16) (machineAt 9#17 10 3#32 [])) = some (3#32, 10#17, .halted, .none) := by decide

/-- Memory keeps its canonical form: writing DEFAULT_CELL takes the cell off the list. -/
theorem test_stor_of_the_default :
    (nextOf (exec (.stor 1#16) (machine 4 0#32 [(1, 8#32)]))).map (fun t => t.dmem) = some [] := by decide

/-! ## Witnesses: encoding and loader -/

theorem witness_EveryWordIsOneInstructionOrIllegal :
    (0x1EFFFF#24 : InstrWord).extractLsb' 16 8 = (0x1E0000#24 : InstrWord).extractLsb' 16 8 ∧
    (0x2B0001#24 : InstrWord).extractLsb' 16 8 = (0x2B0000#24 : InstrWord).extractLsb' 16 8 := by decide

theorem witness_IllegalWordsAreTheOtherOpcodes :
    decimalValue ((['4', '3', '0', '0'] : ObjectLine).take 2) ∉ [10, 11, 12, 20, 21, 22, 30, 31, 32, 33, 34, 40, 41, 42, 99] ∧
    (fun s : State => s.lstatus = .done ∧ s.status = .running ∧ s.pc.toNat < s.par.cap ∧ s.pc.toNat < s.len ∧
      decode (instrCell s.pc.toNat s) = .illegal 255) (withWord 0xFF0000#24 (machineAt 99#17 100 0#32 [])) ∧
    State.reset.lstatus = .idle ∧ (load [['9', '9', '0']] State.reset).lstatus = .done ∧
    0 < (load [['9', '9', '0']] State.reset).len := by decide

theorem witness_ObjectLinesRoundTrip :
    spellable (.load 99#16) = true ∧ spellable (.set 9999#16) = true ∧
    parseLine ['2', '2', '9', '9', '9', '9'] = some 0x16270F#24 ∧ parseLine ['1', '0', '0'] = some 0x0A0000#24 := by decide

theorem witness_AcceptedLinesAreExactlyTheWellFormed :
    parseLine ['4', '2', '9', '9'] = some 0x2A0063#24 ∧ parseLine ['4', '2', '9', '9', '9'] = none ∧
    parseLine ['2', '2', '9', '9', '9', '9'] = some 0x16270F#24 := by decide

/-- CAP = 1 with two lines, and with one. -/
theorem witness_LoadingMoreLinesThanCapacityFails :
    (State.created { cap := 1, defaultCell := 0#32 } []).lstatus = .idle ∧
    (State.created { cap := 1, defaultCell := 0#32 } []).par.cap < [['9', '9', '0'], ['9', '9', '0']].length ∧
    [['9', '9', '0']].length ≤ (State.created { cap := 1, defaultCell := 0#32 } []).par.cap := by decide

/-- One line for each of the four conditions of R56, the fourth for SET and for another code. -/
theorem witness_LoadingRejectedLineFails :
    State.reset.lstatus = .idle ∧ [['2', 'O', '0'], ['9', '9']].length ≤ State.reset.par.cap ∧
    (∃ c ∈ (['2', 'O', '0'] : ObjectLine), c < '0' ∨ '9' < c) ∧ (['9', '9'] : ObjectLine).length < 3 ∧
    decimalValue ((['4', '3', '0'] : ObjectLine).take 2) ∉ legalOpcodes ∧
    (if decimalValue ((['2', '0', '1', '0', '0'] : ObjectLine).take 2) = 22 then 4 else 2) <
      ((['2', '0', '1', '0', '0'] : ObjectLine).drop 2).length ∧
    (if decimalValue ((['2', '2', '1', '0', '0', '0', '0'] : ObjectLine).take 2) = 22 then 4 else 2) <
      ((['2', '2', '1', '0', '0', '0', '0'] : ObjectLine).drop 2).length :=
  ⟨by decide, by decide, ⟨'O', by decide, by decide⟩, by decide, by decide, by decide, by decide⟩

/-- As many lines as CAP, each accepted. -/
theorem witness_LoadStoresEachLineAtItsIndex :
    (State.created { cap := 2, defaultCell := 0#32 } []).lstatus = .idle ∧
    [['2', '2', '5'], ['9', '9', '0']].length ≤ (State.created { cap := 2, defaultCell := 0#32 } []).par.cap ∧
    (∀ l ∈ [['2', '2', '5'], ['9', '9', '0']], parseLine l ≠ none) ∧
    [['2', '2', '5'], ['9', '9', '0']][1]? = some ['9', '9', '0'] := by decide

theorem witness_LoadedProgramIsLegal :
    State.reset.lstatus = .idle ∧ (load [['2', '2', '9', '9', '9', '9'], ['2', '0', '9', '9']] State.reset).lstatus = .done ∧
    1 < (load [['2', '2', '9', '9', '9', '9'], ['2', '0', '9', '9']] State.reset).len := by decide

theorem witness_ExecutePhaseBeginsInTheResetState :
    [['9', '9', '0']].length ≤ ({ cap := 1, defaultCell := 7#32 } : Params).cap ∧
    (∀ l ∈ [['9', '9', '0']], parseLine l ≠ none) ∧ [['9', '9', '0']][0]? = some ['9', '9', '0'] := by decide

theorem witness_FailedLoadNeverStarts :
    (startRun Params.vectors [3#32] [['9', '9']]).lstatus = .failed .internalConsistency ∧
    (startRun { cap := 1, defaultCell := 0#32 } [3#32] [['9', '9', '0'], ['9', '9', '0']]).lstatus =
      .failed .programTooLarge := by decide

/-! ## Witnesses: the step -/

/-- The last cell of a program that fills the memory. -/
theorem witness_StepRunsTheDecodedInstruction :
    (fun s : State => s.lstatus = .done ∧ s.status = .running ∧ s.pc.toNat < s.par.cap ∧ s.pc.toNat < s.len ∧
      decode (instrCell s.pc.toNat s) = .instr (.set 1#16)) (withWord 0x160001#24 (machineAt 99#17 100 0#32 [])) := by decide

theorem witness_DisabledStepChangesNothing :
    ¬ (State.reset.lstatus = .done ∧ State.reset.status = .running) ∧
    ¬ ((machine 1 0#32 []).lstatus = .done ∧ ({ machine 1 0#32 [] with status := .halted } : State).status = .running) := by
  decide

/-- PC = CAP = LEN, PC = LEN below CAP, PC = LEN - 1. -/
theorem witness_FetchChecksCapacityThenLength :
    (machineAt 100#17 100 0#32 []).lstatus = .done ∧ (machineAt 100#17 100 0#32 []).status = .running ∧
    (machineAt 100#17 100 0#32 []).par.cap ≤ (machineAt 100#17 100 0#32 []).pc.toNat ∧
    (machineAt 99#17 99 0#32 []).pc.toNat < (machineAt 99#17 99 0#32 []).par.cap ∧
    (machineAt 99#17 99 0#32 []).len ≤ (machineAt 99#17 99 0#32 []).pc.toNat ∧
    (machineAt 99#17 100 0#32 []).pc.toNat < (machineAt 99#17 100 0#32 []).par.cap ∧
    (machineAt 99#17 100 0#32 []).pc.toNat < (machineAt 99#17 100 0#32 []).len := by decide

theorem witness_FetchChecksCapacityThenLength_at_capacity :
    Inv (machineAt 100#17 100 0#32 []) ∧ (machineAt 100#17 100 0#32 []).par.cap ≤ (machineAt 100#17 100 0#32 []).pc.toNat :=
  ⟨⟨by decide, by decide, by decide, by decide, by decide, by decide⟩, by decide⟩

/-- Each of the six conditions of R109 is first in some state that meets the hypotheses: the numbers are those of
`faultCode`, the conditions in the order of the rule, and last a step without a fault. -/
theorem witness_FirstFaultInPriorityOrderIsRaised :
    [machineAt 100#17 100 0#32 [], machineAt 1#17 1 0#32 [], withWord 0x2B004D#24 (machine 2 0#32 []),
      withWord 0x200064#24 (machine 100 0#32 []), withWord 0x200001#24 (machine 4 2147483648#32 []),
      withWord 0x200001#24 (machine 4 2147483648#32 [(1, -1#32)]), withWord 0x200001#24 (machine 4 7#32 [(1, 2#32)])].map
      (fun s => (s.lstatus, s.status, s.fault, decide (s.len ≤ s.par.cap), faultCode (firstFault s))) =
    [1, 3, 4, 1, 2, 5, 0].map (fun n => (.done, .running, .none, true, n)) := by decide

/-- The operand at LEN, and at LEN - 1, for both checked classes; and the two classes that are not checked. -/
theorem witness_EveryAddressOperandIsBoundChecked :
    operandClass (.load 4#16) = .data ∧ operandClass (.brng 4#16) = .branch ∧
    (machine 4 0#32 []).len ≤ (operandOf (.load 4#16)).toNat ∧ operandClass (.set 9999#16) = .immediate ∧
    operandClass (.halt 9999#16) = .unused ∧ (machine 4 0#32 []).status ≠ .faulted ∧
    (operandOf (.load 3#16)).toNat < (machine 4 0#32 []).len ∧ (machine 4 0#32 []).fault = .none ∧
    nextOf (exec (.load 3#16) (machine 4 0#32 [])) ≠ none := by decide

theorem witness_FaultChangesOnlyStatusAndFault :
    (withWord 0x200001#24 (machine 4 5#32 [])).status ≠ .faulted ∧
    (nextOf (step (withWord 0x200001#24 (machine 4 5#32 [])))).map (fun t => t.status) = some .faulted := by decide

theorem witness_StatusMovesOnlyFromRunning :
    (machine 4 5#32 []).status = .running ∧ ({ machine 4 5#32 [] with status := .halted } : State).status ≠ .running ∧
    nextOf (step { machine 4 5#32 [] with status := .halted }) ≠ none ∧
    (nextOf (step (withWord 0x630000#24 (machine 4 5#32 [])))).map (fun t => t.status) = some .halted ∧
    (nextOf (step (withWord 0x200001#24 (machine 4 5#32 [])))).map (fun t => t.status) = some .faulted := by decide

/-- A step that leaves Running as it is, and one from a state that is Faulted already. -/
theorem witness_FaultReasonsHaveTheirCodes :
    ((machine 4 5#32 []).status ≠ .faulted → (machine 4 5#32 []).fault = .none) ∧
    (nextOf (step (withWord 0x160001#24 (machine 4 5#32 [])))).map (fun t => t.status) = some .running ∧
    (raiseFault .missingHalt (machine 4 5#32 [])).fault ≠ .none ∧
    nextOf (step (raiseFault .missingHalt (machine 4 5#32 []))) ≠ none := by decide

/-- LEN = CAP. -/
theorem witness_StepAlwaysAnswersANextState : (machine 100 0#32 []).len ≤ (machine 100 0#32 []).par.cap := by decide

/-! ## Witnesses: invariants and whole-machine statements -/

/-- A full memory, the PC at its last cell, a STOR there. -/
theorem witness_StepKeepsTheInvariant :
    Inv (withWord 0x150063#24 (machineAt 99#17 100 5#32 [(0, 3#32), (98, 1#32)])) ∧
    nextOf (step (withWord 0x150063#24 (machineAt 99#17 100 5#32 [(0, 3#32), (98, 1#32)]))) ≠ none :=
  ⟨⟨by decide, by decide, by decide, by decide, by decide, by decide⟩, by decide⟩

/-- The least and the greatest capacity. -/
theorem witness_CreatedStateMeetsTheInvariant :
    Params.Legal { cap := 1, defaultCell := 0#32 } ∧ Params.Legal { cap := 65536, defaultCell := -1#32 } := by decide

theorem witness_LoadKeepsTheInvariant : Inv State.reset ∧ State.reset.pc = 0#17 :=
  ⟨⟨by decide, by decide, by decide, by decide, by decide, by decide⟩, by decide⟩

theorem witness_LoadedRunsNeverStopOrMeetIllegalOpcode :
    Params.vectors.Legal ∧ (startRun Params.vectors [7#32] [['1', '0', '0'], ['9', '9', '0']]).lstatus = .done := by decide

theorem witness_LegalProgramsNeverRaiseIllegalOpcode :
    ProgramLegal (withWord 0x160001#24 (machine 1 0#32 [])) ∧ nextOf (step (withWord 0x160001#24 (machine 1 0#32 []))) ≠ none :=
  ⟨fun k hk => ⟨0x160001#24, by obtain rfl : k = 0 := Nat.lt_one_iff.1 hk; exact ⟨by decide, by decide⟩⟩, by decide⟩

theorem witness_ProgramIsConstantDuringExecution :
    nextOf (runSteps 2 (withWord 0x150000#24 (machine 1 77#32 []))) ≠ none ∧
    (memWrite 0 5#32 (withWord 0x150000#24 (machine 1 77#32 []))).isSome = true := by decide

theorem witness_ChannelsAreStreams :
    (nextOf (runSteps 2 { withWord 0x0A0000#24 (machine 1 0#32 []) with input := [4#32] })).map (fun t => t.input) = some [] ∧
    (nextOf (step (withWord 0x0B0000#24 (machine 1 0#32 [])))).map (fun t => t.output) = some [⟨.raw, 0#32⟩] := by decide

/-- A step that faults; a READ that waits and one that does not; each branch taken and not taken; a plain instruction. -/
theorem witness_PcMovesAsEachRuleSays :
    (machine 4 0#32 []).lstatus = .done ∧ (machine 4 0#32 []).status = .running ∧
    [(withWord 0x200001#24 (machineAt 3#17 4 5#32 [])), (withWord 0x0A0001#24 (machineAt 3#17 4 5#32 [])),
      { withWord 0x0A0001#24 (machineAt 3#17 4 5#32 []) with input := [1#32] },
      (withWord 0x280001#24 (machineAt 3#17 4 5#32 [])), (withWord 0x290001#24 (machineAt 3#17 4 (-1#32) [])),
      (withWord 0x290001#24 (machineAt 3#17 4 0#32 [])), (withWord 0x2A0001#24 (machineAt 3#17 4 0#32 [])),
      (withWord 0x2A0001#24 (machineAt 3#17 4 1#32 [])), (withWord 0x140001#24 (machineAt 3#17 4 5#32 []))].map
      (fun s => (nextOf (step s)).map (fun t => (t.status, t.pc))) =
    [some (.faulted, 3#17), some (.running, 3#17), some (.running, 4#17), some (.running, 1#17), some (.running, 1#17),
      some (.running, 4#17), some (.running, 1#17), some (.running, 4#17), some (.running, 4#17)] := by decide

/-- The last clause: the invariant with the PC at the last cell of the greatest memory. -/
theorem witness_PcMovesAsEachRuleSays_no_wrap :
    Inv { State.created { cap := 65536, defaultCell := 0#32 } [] with len := 65536, pc := 65535#17 } ∧
    (65535#17 : ProgramCounter).toNat < 65536 :=
  ⟨⟨by decide, by decide, by decide, by decide, by decide, by decide⟩, by decide⟩

theorem witness_OnlyHaltEndsARunWell :
    (withWord 0x630000#24 (machine 1 0#32 [])).status ≠ .halted ∧
    (nextOf (step (withWord 0x630000#24 (machine 1 0#32 [])))).map (fun t => t.status) = some .halted := by decide

/-- An instruction that changes each item: ACC, a data cell (READ and STOR), IN, OUT, FAULT, the PC. -/
theorem witness_EachItemIsWrittenOnlyByItsWriters :
    (nextOf (exec (.set 1#16) (machine 4 0#32 []))).map (fun t => t.acc) ≠ some (machine 4 0#32 []).acc ∧
    (nextOf (exec (.stor 3#16) (machine 4 1#32 []))).map (dataCell 3) ≠ some (dataCell 3 (machine 4 1#32 [])) ∧
    (nextOf (exec (.read 0#16) { machine 4 1#32 [] with input := [2#32] })).map (dataCell 0) ≠
      some (dataCell 0 (machine 4 1#32 [])) ∧
    (nextOf (exec (.read 0#16) { machine 4 1#32 [] with input := [2#32] })).map (fun t => t.input) ≠ some [2#32] ∧
    (nextOf (exec (.writ 0#16) (machine 4 1#32 []))).map (fun t => t.output) ≠ some [] ∧
    (nextOf (exec (.bran 4#16) (machine 4 1#32 []))).map (fun t => t.fault) ≠ some (machine 4 1#32 []).fault ∧
    (nextOf (exec (.bran 3#16) (machine 4 1#32 []))).map (fun t => t.pc) ≠ some (machine 4 1#32 []).pc := by decide

/-- A step that takes input, so is not stalled: a READ with a value to take. -/
theorem witness_InputArrivalIsSeenOnlyByAWaitingRead :
    ¬ Stalled { withWord 0x0A0000#24 (machine 1 0#32 []) with input := [4#32] } ∧
    nextOf (step { withWord 0x0A0000#24 (machine 1 0#32 []) with input := [4#32] }) ≠ none :=
  ⟨fun h => absurd h.2.1 (by decide), by decide⟩

/-- A READ of the last cell, with LEN = CAP and IN empty. -/
theorem witness_StalledReadCompletesWhenInputArrives :
    Stalled (withWord 0x0A0063#24 (machine 100 0#32 [])) ∧
    (withWord 0x0A0063#24 (machine 100 0#32 [])).len ≤ (withWord 0x0A0063#24 (machine 100 0#32 [])).par.cap :=
  ⟨⟨by decide, by decide, 99#16, by decide, by decide⟩, by decide⟩

/-! ## Witnesses: memory -/

/-- The last cell that exists, and an operand at LEN. -/
theorem witness_WriteChangesOneCellOnly :
    99 < (machine 100 0#32 []).par.cap ∧ (98 : Nat) ≠ 99 ∧ (.read 100#16 : Instr) ∈ [.read 100#16, .stor 100#16] ∧
    (machine 100 0#32 []).len ≤ (100#16 : Operand).toNat := by decide

theorem witness_CanonicalMemoriesAreEqualWhenTheyReadEqual :
    Memory.wf Params.vectors [(0, 1#32), (99, -1#32)] ∧
    ¬ Memory.wf Params.vectors [(0, 0#32)] ∧ ¬ Memory.wf Params.vectors [(1, 1#32), (0, 1#32)] := by decide

/-- LEN = 101 over CAP = 100: a READ with a value to take, and a LOAD. -/
theorem witness_AccessBeyondCapacityStops :
    operandClass (.read 100#16) = .data ∧ operandClass (.load 100#16) = .data ∧
    (operandOf (.load 100#16)).toNat < (machine 101 0#32 []).len ∧
    (machine 101 0#32 []).par.cap ≤ (operandOf (.load 100#16)).toNat ∧
    ({ machine 101 0#32 [] with input := [1#32] } : State).input ≠ [] ∧
    stopOf (exec (.load 100#16) (machine 101 0#32 [])) = some .noSuchCell := by decide

/-! ## Witnesses: the results of the instructions. The bound-check clause is met at operand = LEN, the others at the last
cell that exists, operand = LEN - 1 = CAP - 1 = 99. -/

/-- The operand is at LEN or beyond. -/
abbrev beyond (a : Operand) (s : State) : Prop := s.len ≤ a.toNat

/-- The operand names a cell the instruction may access. -/
abbrev within (a : Operand) (s : State) : Prop := a.toNat < s.len ∧ a.toNat < s.par.cap

/-- A full memory with the accumulator `n` and the last cell `d`. -/
def full (n d : Value) : State := machine 100 n [(99, d)]

theorem witness_ReadStoresTheOldestInput :
    beyond 100#16 (full 0#32 0#32) ∧ (within 99#16 (full 0#32 0#32) ∧ (full 0#32 0#32).input = []) ∧
    within 99#16 { full 0#32 0#32 with input := [1#32] } ∧
    ({ full 0#32 0#32 with input := [1#32] } : State).input = 1#32 :: [] ∧ (98 : Nat) ≠ (99#16 : Operand).toNat := by decide

theorem witness_WritEmitsTheCell : beyond 100#16 (full 0#32 7#32) ∧ within 99#16 (full 0#32 7#32) := by decide

theorem witness_PrntEmitsTheCell : beyond 100#16 (full 0#32 7#32) ∧ within 99#16 (full 0#32 7#32) := by decide

theorem witness_LoadCopiesTheCell : beyond 65535#16 (full 0#32 7#32) ∧ within 0#16 (full 0#32 7#32) := by decide

theorem witness_StorWritesTheAccumulator :
    beyond 100#16 (full 5#32 7#32) ∧ within 99#16 (full 5#32 7#32) ∧ (98 : Nat) ≠ (99#16 : Operand).toNat := by decide

/-- Sums at both ends of the range, and one beyond each. -/
theorem witness_AddGivesTheExactSum :
    beyond 100#16 (full 0#32 0#32) ∧
    (∀ s ∈ [full 2147483646#32 1#32, full 2147483649#32 (-1#32)], within 99#16 s ∧
      -2147483648 ≤ s.acc.toInt + (dataCell 99 s).toInt ∧ s.acc.toInt + (dataCell 99 s).toInt ≤ 2147483647) ∧
    ∀ s ∈ [full 2147483647#32 1#32, full 2147483648#32 (-1#32)], within 99#16 s ∧
      (s.acc.toInt + (dataCell 99 s).toInt < -2147483648 ∨ 2147483647 < s.acc.toInt + (dataCell 99 s).toInt) := by decide

/-- Differences at both ends of the range, and one beyond each. -/
theorem witness_SubGivesTheExactDifference :
    beyond 100#16 (full 0#32 0#32) ∧
    (∀ s ∈ [full 2147483646#32 (-1#32), full 2147483649#32 1#32], within 99#16 s ∧
      -2147483648 ≤ s.acc.toInt - (dataCell 99 s).toInt ∧ s.acc.toInt - (dataCell 99 s).toInt ≤ 2147483647) ∧
    ∀ s ∈ [full 0#32 2147483648#32, full 2147483648#32 1#32], within 99#16 s ∧
      (s.acc.toInt - (dataCell 99 s).toInt < -2147483648 ∨ 2147483647 < s.acc.toInt - (dataCell 99 s).toInt) := by decide

/-- Products at both ends of the range, and one beyond each. -/
theorem witness_MultGivesTheExactProduct :
    beyond 100#16 (full 0#32 0#32) ∧
    (∀ s ∈ [full 2147483647#32 1#32, full (-65536#32) 32768#32], within 99#16 s ∧
      -2147483648 ≤ s.acc.toInt * (dataCell 99 s).toInt ∧ s.acc.toInt * (dataCell 99 s).toInt ≤ 2147483647) ∧
    ∀ s ∈ [full 65536#32 32768#32, full 3#32 (-715827883#32)], within 99#16 s ∧
      (s.acc.toInt * (dataCell 99 s).toInt < -2147483648 ∨ 2147483647 < s.acc.toInt * (dataCell 99 s).toInt) := by decide

/-- The divisor 0; the divisor -1 with the dividend one above MIN; the one pair that overflows. -/
theorem witness_DivTruncatesTowardZero :
    beyond 100#16 (full 0#32 0#32) ∧
    (within 99#16 (full 5#32 0#32) ∧ (dataCell 99 (full 5#32 0#32)).toInt = 0) ∧
    (within 99#16 (full 2147483649#32 (-1#32)) ∧ (dataCell 99 (full 2147483649#32 (-1#32))).toInt ≠ 0 ∧
      ¬ ((full 2147483649#32 (-1#32)).acc.toInt = -2147483648 ∧ (dataCell 99 (full 2147483649#32 (-1#32))).toInt = -1)) ∧
    within 99#16 (full 2147483648#32 (-1#32)) ∧ (full 2147483648#32 (-1#32)).acc.toInt = -2147483648 ∧
    (dataCell 99 (full 2147483648#32 (-1#32))).toInt = -1 := by decide

theorem witness_ModGivesTheTruncatedRemainder :
    beyond 100#16 (full 0#32 0#32) ∧
    (within 99#16 (full 5#32 0#32) ∧ (dataCell 99 (full 5#32 0#32)).toInt = 0) ∧
    within 99#16 (full 2147483648#32 (-1#32)) ∧ (dataCell 99 (full 2147483648#32 (-1#32))).toInt ≠ 0 := by decide

/-- Divisor not 0; a quotient of each sign; a remainder of each sign. -/
theorem witness_DivisionTruncatesTowardZero :
    (2 : Int) ≠ 0 ∧ (0 : Int) < (-7) * (-2) ∧ (-7 : Int) * 2 < 0 ∧ tmod 7 (-2) = 1 ∧ tmod (-7) 2 = -1 := by decide

/-- An exact result that is written; one that is not; DIV's one overflow; a MOD. -/
theorem witness_ArithmeticNeverWraps :
    (machine 4 7#32 []).status = .running ∧ (machine 4 7#32 []).fault = .none ∧
    exactResult (.add 1#16) 7 (-3) = some 4 ∧ nextOf (exec (.add 1#16) (machine 4 7#32 [(1, -3#32)])) ≠ none ∧
    exactResult (.div 1#16) (-2147483648) (-1) = some 2147483648 ∧
    (nextOf (exec (.div 1#16) (machine 4 2147483648#32 [(1, -1#32)]))).map (fun t => t.fault) = some .arithmeticOverflow ∧
    exactResult (.mod 1#16) (-2147483648) (-1) = some 0 ∧
    nextOf (exec (.mod 1#16) (machine 4 2147483648#32 [(1, -1#32)])) ≠ none := by decide

/-- For the three branches: the target at LEN, and at LEN - 1. -/
theorem witness_BranJumps :
    beyond 10#16 (machine 10 0#32 []) ∧ (9#16 : Operand).toNat < (machine 10 0#32 []).len := by decide

/-- Taken at -1, not taken at 0. -/
theorem witness_BrngJumpsIfNegative :
    beyond 10#16 (machine 10 0#32 []) ∧
    ((9#16 : Operand).toNat < (machine 10 (-1#32) []).len ∧ (machine 10 (-1#32) []).acc.toInt < 0) ∧
    (9#16 : Operand).toNat < (machine 10 0#32 []).len ∧ 0 ≤ (machine 10 0#32 []).acc.toInt := by decide

/-- Taken at 0, not taken at -1. -/
theorem witness_BrzrJumpsIfZero :
    beyond 10#16 (machine 10 0#32 []) ∧
    ((9#16 : Operand).toNat < (machine 10 0#32 []).len ∧ (machine 10 0#32 []).acc.toInt = 0) ∧
    (9#16 : Operand).toNat < (machine 10 (-1#32) []).len ∧ (machine 10 (-1#32) []).acc.toInt ≠ 0 := by decide

theorem witness_HaltHalts :
    (withWord 0x63FFFF#24 (machine 1 0#32 [])).status ≠ .halted ∧
    (nextOf (step (withWord 0x63FFFF#24 (machine 1 0#32 [])))).map (fun t => t.status) = some .halted := by decide

/-! ## Witnesses: the frames. Each instruction named answers a next state. -/

theorem witness_AccumulatorInstructionsLeaveTheRest :
    [Instr.load 3#16, .set 3#16, .add 3#16, .sub 3#16, .div 3#16, .mult 3#16, .mod 3#16].map
      (fun i => (nextOf (exec i (machine 4 7#32 [(3, 2#32)]))).map fun t => t.acc.toInt) =
    [some 2, some 3, some 9, some 5, some 3, some 14, some 1] := by decide

theorem witness_StoringInstructionsChangeOneCellOnly :
    [Instr.read 3#16, .stor 3#16].map
      (fun i => (nextOf (exec i { machine 4 7#32 [(3, 2#32)] with input := [5#32] })).map fun t => (dataCell 3 t).toInt) =
    [some 5, some 7] ∧ (2 : Nat) ≠ cellIndex 3#16 := by decide

theorem witness_OutputInstructionsChangeOnlyOutput :
    [Instr.writ 3#16, .prnt 3#16].map (fun i => (nextOf (exec i (machine 4 7#32 [(3, 2#32)]))).map fun t => t.output) =
    [some [⟨.raw, 2#32⟩], some [⟨.display, 2#32⟩]] := by decide

theorem witness_ControlInstructionsChangeOnlyPcAndStatus :
    [Instr.bran 3#16, .brng 3#16, .brzr 3#16, .halt 3#16].map
      (fun i => (nextOf (exec i (machine 4 7#32 []))).map fun t => (t.pc.toNat, t.status)) =
    [some (3, .running), some (1, .running), some (1, .running), some (1, .halted)] := by decide

end Sys2Proof.Tests
end

section
/-! # The state: proofs of the statements about spec/10_state.md

What an instruction and a step leave in each item of the state is said once, over `Effect` and `step_next`; each
statement about the state is then read off. -/

namespace Sys2Proof.Machine

/-! ## What an instruction leaves in each item of the state -/

section Effects
variable {s t : State} {i : Instr}

/-- No instruction writes the parameters, LEN, IMEM or LSTATUS (R10). -/
theorem Effect.frame (h : Effect s i t) :
    t.par = s.par ∧ t.len = s.len ∧ t.imem = s.imem ∧ t.lstatus = s.lstatus := by
  cases h <;> exact ⟨rfl, rfl, rfl, rfl⟩

/-- How STATUS and FAULT move: neither does, or a fault is taken and the PC stays, or HALT runs. -/
theorem Effect.status_cases (h : Effect s i t) :
    (t.status = s.status ∧ t.fault = s.fault) ∨ (t.status = .faulted ∧ t.fault ≠ .none ∧ t.pc = s.pc) ∨
    ((∃ x, i = .halt x) ∧ t.status = .halted ∧ t.fault = s.fault) := by
  cases h with
  | fault i r hr => exact .inr (.inl ⟨rfl, hr, rfl⟩)
  | halt x => exact .inr (.inr ⟨⟨x, rfl⟩, rfl, rfl⟩)
  | _ => exact .inl ⟨rfl, rfl⟩

/-- Where the PC goes: it stays, it advances, or it jumps to an operand below LEN (R69). -/
theorem Effect.pc_cases (h : Effect s i t) :
    t.pc = s.pc ∨ t.pc = s.pc + 1#17 ∨ ∃ a : Operand, a.toNat < s.len ∧ t.pc = targetPc a := by
  cases h with
  | fault | stall => exact .inl rfl
  | jump i hi ht => exact .inr (.inr ⟨_, ht, rfl⟩)
  | _ => exact .inr (.inl rfl)

/-- Only the instructions that write the accumulator change it. -/
theorem Effect.acc_cases (h : Effect s i t) : t.acc = s.acc ∨ writesAcc i = true := by
  cases h with
  | acc i v hi => exact .inr hi
  | _ => exact .inl rfl

/-- Only READ and STOR change the data plane, and then by a write to the cell of their operand. -/
theorem Effect.dmem_cases (h : Effect s i t) :
    t.dmem = s.dmem ∨ ∃ (a : Operand) (v : Value), (i = .read a ∨ i = .stor a) ∧ cellIndex a < s.par.cap ∧
      t.dmem = (withData (cellIndex a) v s).dmem := by
  cases h with
  | input a v rest ha hc hin => exact .inr ⟨a, v, .inl rfl, hc, rfl⟩
  | store a ha hc => exact .inr ⟨a, s.acc, .inr rfl, hc, rfl⟩
  | _ => exact .inl rfl

/-- Only READ changes IN, and then it takes the oldest value. -/
theorem Effect.input_cases (h : Effect s i t) :
    t.input = s.input ∨ ((∃ a, i = .read a) ∧ ∃ v, s.input = v :: t.input) := by
  cases h with
  | input a v rest ha hc hin => exact .inr ⟨⟨a, rfl⟩, v, hin⟩
  | _ => exact .inl rfl

/-- Only WRIT and PRNT change OUT, and then they append one event. -/
theorem Effect.output_cases (h : Effect s i t) :
    t.output = s.output ∨ ((∃ a, i = .writ a ∨ i = .prnt a) ∧ ∃ e, t.output = s.output ++ [e]) := by
  cases h with
  | raw a ha => exact .inr ⟨⟨a, .inl rfl⟩, _, rfl⟩
  | display a ha => exact .inr ⟨⟨a, .inr rfl⟩, _, rfl⟩
  | _ => exact .inl rfl

/-- An instruction keeps the data plane in canonical form. -/
theorem Effect.dmem_wf (h : Effect s i t) (hs : Memory.wf s.par s.dmem) : Memory.wf s.par t.dmem := by
  obtain hd | ⟨a, v, -, hc, hd⟩ := h.dmem_cases <;> rw [hd]
  · exact hs
  · exact setCellOf_wf hc hs

/-- A data cell an instruction changes is the one its operand names. -/
theorem Effect.dataCell_cases (h : Effect s i t) {b : Nat} (hb : dataCell b t ≠ dataCell b s) :
    ∃ a : Operand, a.toNat = b ∧ (i = .read a ∨ i = .stor a) := by
  obtain ⟨hpar, -⟩ := h.frame
  obtain hd | ⟨a, v, hi, -, hd⟩ := h.dmem_cases
  · exact absurd (dataCell_congr hpar hd b) hb
  · refine ⟨a, ?_, hi⟩
    by_contra hne
    exact hb ((dataCell_congr (s := withData (cellIndex a) v s) hpar hd b).trans
      (dataCell_withData_other (Ne.symm hne) v s))

/-! ## What a step leaves in each item of the state -/

/-- How a step moves STATUS and FAULT (R13, R14): it changes nothing of them, or leaves Running by a fault, or by a
HALT at the PC. -/
theorem step_status_cases (h : step s = .next t) :
    (t.status = s.status ∧ t.fault = s.fault) ∨
    (s.status = .running ∧ t.status = .faulted ∧ t.fault ≠ .none) ∨
    (s.status = .running ∧ t.status = .halted ∧ t.fault = s.fault ∧
      ∃ x, decode (instrCell s.pc.toNat s) = .instr (.halt x)) := by
  obtain ⟨-, rfl⟩ | ⟨⟨-, hrun⟩, r, hr, -, rfl⟩ | ⟨⟨-, hrun⟩, i, hf, he⟩ := step_next h
  · exact .inl ⟨rfl, rfl⟩
  · exact .inr (.inl ⟨hrun, rfl, hr⟩)
  · obtain hkeep | ⟨hs, hfault, -⟩ | ⟨⟨x, rfl⟩, hs, hfault⟩ := he.status_cases
    · exact .inl hkeep
    · exact .inr (.inl ⟨hrun, hs, hfault⟩)
    · obtain ⟨-, -, hdec⟩ := fetchDecode_inr.1 hf
      exact .inr (.inr ⟨hrun, hs, hfault, x, hdec⟩)

/-- Outside Running a step changes nothing (R65). -/
theorem step_of_not_running (hrun : s.status ≠ .running) (h : step s = .next t) : t = s := by
  rw [step_of_disabled fun he => hrun he.2] at h
  exact (Host.Outcome.next.inj h).symm

/-- A step leaves IN as it is or takes its oldest value (R19). -/
theorem step_input_cases (h : step s = .next t) : t.input = s.input ∨ ∃ v, s.input = v :: t.input := by
  obtain ⟨-, rfl⟩ | ⟨-, r, -, -, rfl⟩ | ⟨-, i, -, he⟩ := step_next h
  · exact .inl rfl
  · exact .inl rfl
  · exact he.input_cases.imp_right And.right

/-- A step leaves OUT as it is or appends one event (R20). -/
theorem step_output_cases (h : step s = .next t) : t.output = s.output ∨ ∃ e, t.output = s.output ++ [e] := by
  obtain ⟨-, rfl⟩ | ⟨-, r, -, -, rfl⟩ | ⟨-, i, -, he⟩ := step_next h
  · exact .inl rfl
  · exact .inl rfl
  · exact he.output_cases.imp_right And.right

/-! ## The invariant -/

/-- Taking a fault keeps the invariant. -/
theorem Inv.raiseFault {r : FaultReason} (h : Inv s) (hr : r ≠ .none) : Inv (raiseFault r s) :=
  { h with fault_iff := by simpa using hr }

/-- The PC after an instruction fetched below LEN is at most LEN. -/
theorem Effect.pc_le (h : Effect s i t) (hpc : s.pc.toNat < s.len) : t.pc.toNat ≤ s.len := by
  obtain hp | hp | ⟨a, ha, hp⟩ := h.pc_cases <;> rw [hp]
  · omega
  · rw [BitVec.toNat_add]
    have := Nat.mod_le (s.pc.toNat + (1#17).toNat) (2 ^ 17)
    have : (1#17 : ProgramCounter).toNat = 1 := rfl
    omega
  · rw [targetPc_toNat]
    omega

/-- An instruction fetched below LEN while Running keeps the invariant. -/
theorem Inv.effect (h : Inv s) (hrun : s.status = .running) (hpc : s.pc.toNat < s.len) (he : Effect s i t) : Inv t := by
  obtain ⟨hpar, hlen, himem, -⟩ := he.frame
  have hnone : s.fault = .none := by simpa [hrun] using h.fault_iff
  exact {
    legal := hpar ▸ h.legal
    len_le := by rw [hpar, hlen]; exact h.len_le
    pc_le := hlen ▸ he.pc_le hpc
    dmem_wf := hpar ▸ he.dmem_wf h.dmem_wf
    imem_wf := by rw [hpar, himem]; exact h.imem_wf
    fault_iff := by
      obtain ⟨hs, hf⟩ | ⟨hs, hf, -⟩ | ⟨-, hs, hf⟩ := he.status_cases
      · rw [hs, hf]; exact h.fault_iff
      · exact iff_of_true hs hf
      · simp [hs, hf, hnone] }

/-- Every step keeps the invariant. -/
theorem Inv.step (h : Inv s) (hst : step s = .next t) : Inv t := by
  obtain ⟨-, rfl⟩ | ⟨-, r, hr, -, rfl⟩ | ⟨⟨-, hrun⟩, i, hf, he⟩ := step_next hst
  · exact h
  · exact h.raiseFault hr
  · obtain ⟨-, hpc, -⟩ := fetchDecode_inr.1 hf
    exact h.effect hrun hpc he

/-- A created state with legal parameters meets the invariant. -/
theorem inv_created {p : Params} (hp : p.Legal) (queued : List Value) : Inv (State.created p queued) where
  legal := hp
  len_le := Nat.zero_le _
  pc_le := Nat.le_refl _
  dmem_wf := (created_planes_wf p queued).1
  imem_wf := (created_planes_wf p queued).2
  fault_iff := by simp [State.created]

end Effects

/-! ## The load -/

/-- What every load leaves alone (R55). -/
theorem load_frame (lines : List ObjectLine) (s : State) : load lines s =
    { s with len := (load lines s).len, imem := (load lines s).imem, lstatus := (load lines s).lstatus } := by
  unfold load
  split
  · split
    · rfl
    · exact loadFrom_frame 0 lines s
  · rfl

/-- A load of at most CAP lines from Idle is the loader's loop (R64). -/
theorem load_of_fits {lines : List ObjectLine} {s : State} (hi : s.lstatus = .idle)
    (hl : lines.length ≤ s.par.cap) : load lines s = loadFrom 0 lines s := by
  rw [load, if_pos hi, if_neg (Nat.not_lt.2 hl)]

/-- A load writes only LSTATUS, if anything, or is the loader's loop on at most CAP lines. -/
theorem load_cases (lines : List ObjectLine) (s : State) :
    (∃ st, load lines s = { s with lstatus := st }) ∨
    (lines.length ≤ s.par.cap ∧ load lines s = loadFrom 0 lines s) := by
  by_cases hi : s.lstatus = .idle
  · rcases Nat.lt_or_ge s.par.cap lines.length with hl | hl
    · exact .inl ⟨.failed .programTooLarge, by rw [load, if_pos hi, if_pos hl]⟩
    · exact .inr ⟨hl, load_of_fits hi hl⟩
  · exact .inl ⟨s.lstatus, by rw [load, if_neg hi]⟩

/-- The loop leaves LEN as it was, or makes it the number of lines (R61, R62). -/
theorem loadFrom_len_cases (k : Nat) (ls : List ObjectLine) (s : State) :
    (loadFrom k ls s).len = s.len ∨ (loadFrom k ls s).len = k + ls.length := by
  induction ls generalizing k s with
  | nil => exact .inr rfl
  | cons l ls ih =>
    rw [loadFrom]
    cases parseLine l with
    | none => exact .inl rfl
    | some w => exact (ih (k + 1) (storeWord k w s)).imp_right fun h => by rw [h, List.length_cons]; omega

/-- A load keeps the invariant of a state at the entry point. -/
theorem Inv.load {s : State} (h : Inv s) (hpc : s.pc = 0#17) (lines : List ObjectLine) : Inv (load lines s) := by
  obtain ⟨st, hl⟩ | ⟨hlen, hl⟩ := load_cases lines s <;> rw [hl]
  · exact { h with }
  · have hle : (loadFrom 0 lines s).len ≤ s.par.cap := by
      rcases loadFrom_len_cases 0 lines s with hn | hn
      · exact hn ▸ h.len_le
      · omega
    rw [loadFrom_frame]
    exact { h with
      len_le := hle
      pc_le := by simp [hpc]
      imem_wf := loadFrom_imem_wf 0 lines s (by omega) h.imem_wf }

/-! ## When an instruction answers a next state -/

section Total
variable {s : State}

theorem withCell_total {a : Operand} {k : Value → Answer} (hl : s.len ≤ s.par.cap)
    (hk : ∀ d, ∃ t, k d = .next t) : ∃ t, withCell a s k = .next t := by
  rcases Nat.lt_or_ge (cellIndex a) s.len with ha | ha
  · rw [withCell_of_lt ha (by omega)]
    exact hk _
  · exact ⟨_, withCell_of_ge ha k⟩

theorem commitResult_total (r : Int) (s : State) : ∃ t, commitResult r s = .next t := by
  by_cases hr : fits r
  · exact ⟨_, commitResult_of_fits hr s⟩
  · exact ⟨_, commitResult_of_not_fits hr s⟩

theorem branchIf_total (taken : Prop) [Decidable taken] (a : Operand) (s : State) :
    ∃ t, branchIf taken a s = .next t := by
  rcases Nat.lt_or_ge (cellIndex a) s.len with ha | ha
  · exact ⟨_, branchIf_of_lt ha⟩
  · exact ⟨_, branchIf_of_ge ha⟩

/-- READ with its operand below LEN and IN empty waits (R19, R75; log 3). -/
theorem execRead_of_nil {a : Operand} (ha : cellIndex a < s.len) (hin : s.input = []) : execRead a s = .next s := by
  rw [execRead, checkAddr_of_lt ha, takeInput_of_nil hin]

/-- READ with its operand below LEN and a value in IN is a store of that value (R75). -/
theorem execRead_of_cons {a : Operand} (ha : cellIndex a < s.len) {v : Value} {rest : List Value}
    (hin : s.input = v :: rest) : execRead a s = storeAndAdvance a v (withInput rest s) := by
  rw [execRead, checkAddr_of_lt ha, takeInput_of_cons hin]

theorem execRead_total {a : Operand} (hl : s.len ≤ s.par.cap) : ∃ t, execRead a s = .next t := by
  rcases Nat.lt_or_ge (cellIndex a) s.len with ha | ha
  · cases hin : s.input with
    | nil => exact ⟨s, execRead_of_nil ha hin⟩
    | cons v rest =>
      rw [execRead_of_cons ha hin]
      exact ⟨_, storeAndAdvance_of_lt (by rw [withInput_par]; omega) v⟩
  · exact ⟨_, checkAddr_of_ge ha _⟩

theorem execStor_total {a : Operand} (hl : s.len ≤ s.par.cap) : ∃ t, execStor a s = .next t := by
  rcases Nat.lt_or_ge (cellIndex a) s.len with ha | ha
  · rw [execStor, checkAddr_of_lt ha]
    exact ⟨_, storeAndAdvance_of_lt (by omega) _⟩
  · exact ⟨_, checkAddr_of_ge ha _⟩

/-- While LEN is at most CAP every instruction answers a next state. -/
theorem exec_total (i : Instr) (hl : s.len ≤ s.par.cap) : ∃ t, exec i s = .next t := by
  cases i with
  | read a => exact execRead_total hl
  | stor a => exact execStor_total hl
  | writ a | prnt a | load a => exact withCell_total hl fun _ => ⟨_, rfl⟩
  | set k | halt x => exact ⟨_, rfl⟩
  | add a | sub a | mult a => exact withCell_total hl fun _ => commitResult_total _ _
  | div a =>
    refine withCell_total hl fun d => ?_
    split
    · exact ⟨_, rfl⟩
    · exact commitResult_total _ _
  | mod a =>
    refine withCell_total hl fun d => ?_
    split <;> exact ⟨_, rfl⟩
  | bran a | brng a | brzr a => exact branchIf_total _ _ _

/-- While LEN is at most CAP every step answers a next state. -/
theorem step_total (hl : s.len ≤ s.par.cap) : ∃ t, step s = .next t := by
  by_cases he : stepEnabled s
  · cases hf : fetchDecode s with
    | inl r => exact ⟨_, step_of_fault he hf⟩
    | inr i => rw [step_of_instr he hf]; exact exec_total i hl
  · exact ⟨s, step_of_disabled he⟩

end Total

/-! ## The canonical form of the data plane -/

/-- In a list with rising indices the listed cells are exactly those the lookup finds. -/
theorem mem_iff_lookupCell {α : Type} {m : List (Nat × α)} (hm : m.Pairwise (fun x y => x.1 < y.1)) {a : Nat}
    {v : α} : (a, v) ∈ m ↔ lookupCell a m = some v := by
  induction m with
  | nil => simp [lookupCell]
  | cons c m ih =>
    obtain ⟨b, u⟩ := c
    obtain ⟨hb, hm⟩ := List.pairwise_cons.1 hm
    rw [List.mem_cons, lookupCell, ih hm, Prod.mk.injEq]
    split
    · rename_i hab
      subst hab
      have hnot : lookupCell b m ≠ some v := fun h => Nat.lt_irrefl b (hb _ ((ih hm).2 h))
      simp [hnot, eq_comm]
    · rename_i hab
      simp [Ne.symm hab]

/-- In a canonical data plane a cell is listed with `v` exactly when it reads `v` and `v` is not DEFAULT_CELL. -/
theorem Memory.wf.mem_iff {p : Params} {m : Memory} (hm : Memory.wf p m) {a : Nat} {v : Value} :
    (a, v) ∈ m ↔ cellOf p.defaultCell a m = v ∧ v ≠ p.defaultCell := by
  obtain ⟨hrise, hcells⟩ := hm
  constructor
  · intro h
    exact ⟨by rw [cellOf, (mem_iff_lookupCell hrise).1 h, Option.getD_some], (hcells _ h).2⟩
  · rintro ⟨hv, hne⟩
    rw [mem_iff_lookupCell hrise]
    cases hl : lookupCell a m with
    | none => exact absurd (by rw [← hv, cellOf, hl, Option.getD_none]) hne
    | some u => rw [cellOf, hl, Option.getD_some] at hv; rw [hv]

/-! ## A value arriving for a READ -/

/-- The host's append changes nothing the fetch reads. -/
@[simp] theorem fetchDecode_hostAppend (v : Value) (s : State) : fetchDecode (hostAppend v s) = fetchDecode s := rfl

/-- Taking the only value back gives the state before the host appended it. -/
theorem withInput_nil_hostAppend {s : State} (hin : s.input = []) (v : Value) : withInput [] (hostAppend v s) = s := by
  rw [← hin]; rfl

/-! ## The obligations -/

/-- Settles O24: each of the three things a step can do keeps the invariant. -/
theorem stepKeepsTheInvariant : Obligations.StepKeepsTheInvariant :=
  fun _ _ => Inv.step

/-- Settles O25. -/
theorem createdStateMeetsTheInvariant : Obligations.CreatedStateMeetsTheInvariant :=
  ⟨fun _ queued hp => inv_created hp queued, inv_created (by decide) []⟩

/-- Settles O26. -/
theorem loadKeepsTheInvariant : Obligations.LoadKeepsTheInvariant :=
  fun lines _ h hpc => h.load hpc lines

/-- Settles O13, from what the loader's loop leaves when it accepts every line. -/
theorem executePhaseBeginsInTheResetState : Obligations.ExecutePhaseBeginsInTheResetState := by
  intro p queued lines hlen hlines
  have hacc : ∀ l ∈ lines, (parseLine l).isSome := fun l hl => Option.isSome_iff_ne_none.2 (hlines l hl)
  obtain ⟨hdone, hcount, -⟩ := loadFrom_of_accepted hacc 0 (State.created p queued)
  have hcell : ∀ (k : Nat) (l : ObjectLine), lines[k]? = some l →
      parseLine l = some (instrCell k (loadFrom 0 lines (State.created p queued))) := by
    intro k l hk
    have hlook := lookupCell_loadFrom hacc 0 (State.created p queued) hk
    obtain ⟨w, hw⟩ := Option.isSome_iff_exists.1 (hacc l (List.mem_of_getElem? hk))
    rw [Nat.zero_add, hw] at hlook
    rw [hw, instrCell, hlook, Option.getD_some]
  refine ⟨_, load_of_fits rfl hlen, ?_⟩
  rw [Nat.zero_add] at hcount
  rw [loadFrom_frame] at hcell ⊢
  exact ⟨rfl, rfl, rfl, rfl, rfl, hcount, hcell, fun a => dataCell_created p queued a, rfl, rfl, hdone⟩

/-- Settles O21. -/
theorem statusMovesOnlyFromRunning : Obligations.StatusMovesOnlyFromRunning := by
  refine ⟨rfl, rfl, rfl, fun _ _ => rfl, fun s t h => ?_⟩
  obtain ⟨hs, -⟩ | ⟨hrun, hs, hf⟩ | ⟨hrun, hs, -, hx⟩ := step_status_cases h
  · exact ⟨.inl hs, fun hne => step_of_not_running hne h, fun hrun hh => by simp [hs, hrun] at hh,
      fun hrun hf => by simp [hs, hrun] at hf⟩
  · exact ⟨.inr (.inr ⟨hrun, hs⟩), fun hne => absurd hrun hne, fun _ hh => by simp [hs] at hh, fun _ _ => hf⟩
  · exact ⟨.inr (.inl ⟨hrun, hs⟩), fun hne => absurd hrun hne, fun _ _ => hx, fun _ hf => by simp [hs] at hf⟩

/-- Settles O22: a state whose FAULT is not None is Faulted, and there a step changes nothing. -/
theorem faultReasonsHaveTheirCodes : Obligations.FaultReasonsHaveTheirCodes := by
  refine ⟨rfl, rfl, rfl, rfl, rfl, rfl, fun _ _ => rfl, fun s t hs h => ⟨fun ht => ?_, fun hf => ?_⟩⟩
  · obtain ⟨hst, hf⟩ | ⟨-, hst, -⟩ | ⟨hrun, -, hf, -⟩ := step_status_cases h
    · exact hf.trans (hs (hst ▸ ht))
    · exact absurd hst ht
    · exact hf.trans (hs (by simp [hrun]))
  · have hfaulted : s.status = .faulted := by_contra fun hne => hf (hs hne)
    rw [step_of_not_running (by simp [hfaulted]) h]

/-- Settles O23. -/
theorem stepAlwaysAnswersANextState : Obligations.StepAlwaysAnswersANextState :=
  fun _ => step_total

/-- Settles O30: one step's append and removal, and their transitivity along the run. -/
theorem channelsAreStreams : Obligations.ChannelsAreStreams := by
  constructor
  · intro s k t h
    refine runSteps_keeps (P := fun u => s.output <+: u.output ∧ u.input <:+ s.input) ?_
      ⟨List.prefix_rfl, List.suffix_rfl⟩ h
    rintro u v ⟨hout, hin⟩ hst
    constructor
    · obtain ho | ⟨e, ho⟩ := step_output_cases hst <;> rw [ho]
      · exact hout
      · exact hout.trans (List.prefix_append _ _)
    · obtain hi | ⟨x, hi⟩ := step_input_cases hst
      · exact hi ▸ hin
      · exact (hi ▸ List.suffix_cons x v.input : v.input <:+ u.input).trans hin
  · intro s t h
    constructor
    · obtain ho | ⟨e, ho⟩ := step_output_cases h <;> simp [ho]
    · obtain hi | ⟨x, hi⟩ := step_input_cases h <;> simp [hi]

/-- Settles O33, item by item from what an instruction leaves in each. -/
theorem eachItemIsWrittenOnlyByItsWriters : Obligations.EachItemIsWrittenOnlyByItsWriters := by
  intro i s t h
  have he := exec_effect h
  obtain ⟨hpar, hlen, himem, hlst⟩ := he.frame
  refine ⟨fun hne => ?_, fun b => he.dataCell_cases, fun hne => ?_, fun hne => ?_, ?_, fun hne => ?_, fun hne => ?_,
    hlen, himem, hlst, hpar, fun lines u => ⟨_, rfl, load_frame lines u⟩⟩
  · have hw := he.acc_cases.resolve_left hne
    refine ⟨operandOf i, ?_⟩
    cases i <;> simp [writesAcc, operandOf] at hw ⊢
  · exact (he.input_cases.resolve_left hne).1
  · exact (he.output_cases.resolve_left hne).1
  · obtain ⟨hs, -⟩ | ⟨hs, -, -⟩ | ⟨hx, -, -⟩ := he.status_cases
    · exact .inl hs
    · exact .inr (.inl hs)
    · exact .inr (.inr hx)
  · obtain ⟨-, hf⟩ | ⟨hs, hf, -⟩ | ⟨-, -, hf⟩ := he.status_cases
    · exact absurd hf hne
    · exact ⟨hs, hf⟩
    · exact absurd hf hne
  · obtain ⟨-, hf⟩ | ⟨-, -, hp⟩ | ⟨-, -, hf⟩ := he.status_cases
    · exact hf
    · exact absurd hp hne
    · exact hf

/-- Settles O35. -/
theorem stalledReadCompletesWhenInputArrives : Obligations.StalledReadCompletesWhenInputArrives := by
  rintro s ⟨hen, hin, a, hfetch, ha⟩ hlen
  obtain ⟨-, -, hdec⟩ := fetchDecode_inr.1 hfetch
  refine ⟨(step_of_instr hen hfetch).trans (execRead_of_nil ha hin), fun v => ?_⟩
  have hstep : step (hostAppend v s) = .next (advancePc (withData (cellIndex a) v s)) := calc
    step (hostAppend v s) = execRead a (hostAppend v s) :=
      step_of_instr (s := hostAppend v s) hen ((fetchDecode_hostAppend v s).trans hfetch)
    _ = storeAndAdvance a v (withInput [] (hostAppend v s)) :=
      execRead_of_cons (s := hostAppend v s) ha (by simp [hin])
    _ = storeAndAdvance a v s := by rw [withInput_nil_hostAppend hin]
    _ = .next (advancePc (withData (cellIndex a) v s)) := storeAndAdvance_of_lt (by omega) v
  exact ⟨a, _, hdec, hstep, rfl, dataCell_withData_self _ v s, fun b hb => dataCell_withData_other hb v s⟩

/-- Settles O37: a canonical plane lists exactly the cells that do not read as DEFAULT_CELL, in rising order. -/
theorem canonicalMemoriesAreEqualWhenTheyReadEqual : Obligations.CanonicalMemoriesAreEqualWhenTheyReadEqual := by
  intro p m n hm hn hread
  have : Std.Irrefl (fun x y : Nat × Value => x.1 < y.1) := ⟨fun x => Nat.lt_irrefl x.1⟩
  have : Std.Antisymm (fun x y : Nat × Value => x.1 < y.1) := ⟨fun x y h h' => absurd h (Nat.lt_asymm h')⟩
  exact hm.1.eq_of_mem_iff hn.1 fun c => by rw [hm.mem_iff, hn.mem_iff, hread]

/-- Settles O38: the access of each data instruction is a `withCell` or a store. -/
theorem accessBeyondCapacityStops : Obligations.AccessBeyondCapacityStops := by
  intro i s hdata ha hc hin
  cases i with
  | read a =>
    obtain ⟨v, rest, hvs⟩ := List.exists_cons_of_ne_nil (hin.resolve_left fun h => h a rfl)
    exact (execRead_of_cons ha hvs).trans (storeAndAdvance_of_no_cell (s := withInput rest s) hc v)
  | stor a => exact (checkAddr_of_lt ha _).trans (storeAndAdvance_of_no_cell hc s.acc)
  | writ a | prnt a | load a | add a | sub a | div a | mult a | mod a => exact withCell_of_no_cell ha hc _
  | set k | bran a | brng a | brzr a | halt x => simp [operandClass] at hdata

end Sys2Proof.Machine
end

section
/-! # Memory and frames: proofs of the statements about spec/20_memory.md

A next state of an instruction is one of the forms of `Effect`; each class of instructions meets few of them. Those are
listed once per class, and each frame is then read off the forms of its class. -/

namespace Sys2Proof.Machine

/-! ## The next states of each class of instructions -/

section Effects
variable {s t : State} {i : Instr} {a : Operand}

theorem operandClass_of_writesAcc (hi : writesAcc i = true) : operandClass i ≠ .branch := by
  cases i <;> simp [writesAcc, operandClass] at hi ⊢

/-- LOAD, SET and the arithmetic instructions fault, or write the accumulator and advance. -/
theorem Effect.of_writesAcc (h : Effect s i t) (hi : writesAcc i = true) :
    (∃ r, r ≠ .none ∧ t = raiseFault r s) ∨ ∃ v, t = advancePc (setAcc v s) := by
  cases h with
  | fault i r hr => exact .inl ⟨r, hr, rfl⟩
  | acc i v => exact .inr ⟨v, rfl⟩
  | jump i hb | through i hb => exact absurd hb (operandClass_of_writesAcc hi)
  | stall | input | raw | display | store | halt => cases hi

/-- READ and STOR fault, or READ waits, or one of them stores its value and advances; READ takes that value off IN. -/
theorem Effect.of_storing (h : Effect s i t) (hi : i = .read a ∨ i = .stor a) :
    (∃ r, r ≠ .none ∧ t = raiseFault r s) ∨ (i = .read a ∧ s.input = [] ∧ t = s) ∨
    ∃ v vs, (i = .read a ∧ s.input = v :: vs ∨ i = .stor a ∧ v = s.acc ∧ vs = s.input) ∧
      t = advancePc (withData (cellIndex a) v (withInput vs s)) := by
  rcases hi with rfl | rfl
  · cases h with
    | fault i r hr => exact .inl ⟨r, hr, rfl⟩
    | stall a ha hin => exact .inr (.inl ⟨rfl, hin, rfl⟩)
    | input a v rest ha hc hin => exact .inr (.inr ⟨v, rest, .inl ⟨rfl, hin⟩, rfl⟩)
    | acc i v hw => cases hw
    | jump i hb | through i hb => cases hb
  · cases h with
    | fault i r hr => exact .inl ⟨r, hr, rfl⟩
    | store a ha hc => exact .inr (.inr ⟨s.acc, s.input, .inr ⟨rfl, rfl, rfl⟩, rfl⟩)
    | acc i v hw => cases hw
    | jump i hb | through i hb => cases hb

/-- WRIT and PRNT fault, or emit the addressed cell under their tag and advance. -/
theorem Effect.of_output (h : Effect s i t) (hi : i = .writ a ∨ i = .prnt a) :
    (∃ r, r ≠ .none ∧ t = raiseFault r s) ∨
    ∃ f, (i = .writ a ∧ f = .raw ∨ i = .prnt a ∧ f = .display) ∧
      t = advancePc (emit f (dataCell (cellIndex a) s) s) := by
  rcases hi with rfl | rfl
  · cases h with
    | fault i r hr => exact .inl ⟨r, hr, rfl⟩
    | raw a ha => exact .inr ⟨.raw, .inl ⟨rfl, rfl⟩, rfl⟩
    | acc i v hw => cases hw
    | jump i hb | through i hb => cases hb
  · cases h with
    | fault i r hr => exact .inl ⟨r, hr, rfl⟩
    | display a ha => exact .inr ⟨.display, .inr ⟨rfl, rfl⟩, rfl⟩
    | acc i v hw => cases hw
    | jump i hb | through i hb => cases hb

/-- A branch faults, jumps to its operand, or advances. -/
theorem Effect.of_branch (h : Effect s i t) (hi : operandClass i = .branch) :
    (∃ r, r ≠ .none ∧ t = raiseFault r s) ∨ t = jumpTo (operandOf i) s ∨ t = advancePc s := by
  cases h with
  | fault i r hr => exact .inl ⟨r, hr, rfl⟩
  | jump => exact .inr (.inl rfl)
  | through => exact .inr (.inr rfl)
  | acc i v hw => exact absurd hi (operandClass_of_writesAcc hw)
  | stall | input | raw | display | store | halt => cases hi

/-! ## The program is not written -/

/-- Two states with the same instruction plane hold the same instruction cells. -/
theorem instrCell_congr (h : t.imem = s.imem) (b : Nat) : instrCell b t = instrCell b s := by
  rw [instrCell, instrCell, h]

/-- No step writes the parameters, LEN, IMEM or LSTATUS (R37). -/
theorem step_frame (h : step s = .next t) :
    t.par = s.par ∧ t.len = s.len ∧ t.imem = s.imem ∧ t.lstatus = s.lstatus := by
  obtain ⟨-, rfl⟩ | ⟨-, r, -, -, rfl⟩ | ⟨-, i, -, he⟩ := step_next h
  · exact ⟨rfl, rfl, rfl, rfl⟩
  · exact ⟨rfl, rfl, rfl, rfl⟩
  · exact he.frame

/-- No run writes the parameters, LEN, IMEM or LSTATUS. -/
theorem runSteps_frame {k : Nat} (h : runSteps k s = .next t) :
    t.par = s.par ∧ t.len = s.len ∧ t.imem = s.imem ∧ t.lstatus = s.lstatus := by
  refine runSteps_keeps
    (P := fun u => u.par = s.par ∧ u.len = s.len ∧ u.imem = s.imem ∧ u.lstatus = s.lstatus) ?_ ⟨rfl, rfl, rfl, rfl⟩ h
  rintro u v ⟨hpar, hlen, himem, hlst⟩ hst
  obtain ⟨hpar', hlen', himem', hlst'⟩ := step_frame hst
  exact ⟨hpar'.trans hpar, hlen'.trans hlen, himem'.trans himem, hlst'.trans hlst⟩

/-! ## MemWrite -/

/-- A write that answers is a write to an existing cell. -/
theorem memWrite_eq_some {n : Nat} {v : Value} (h : memWrite n v s = some t) :
    n < s.par.cap ∧ t = withData n v s := by
  rcases Nat.lt_or_ge n s.par.cap with hn | hn
  · rw [memWrite_of_lt hn] at h
    exact ⟨hn, (Option.some.inj h).symm⟩
  · rw [memWrite_of_ge hn] at h
    cases h

/-- A cell reads what was written to it. -/
theorem memRead_withData_self {n : Nat} (hn : n < s.par.cap) (v : Value) : memRead n (withData n v s) = some v := by
  rw [memRead_of_lt (s := withData n v s) hn, dataCell_withData_self]

/-- A write is not seen by a read of another cell. -/
theorem memRead_withData_other {b n : Nat} (h : b ≠ n) (v : Value) (s : State) :
    memRead b (withData n v s) = memRead b s := by
  rw [memRead, memRead, withData_par, dataCell_withData_other h]

/-- A READ or STOR whose operand is not below LEN faults and stores nothing (R71). -/
theorem exec_storing_of_ge (hi : i = .read a ∨ i = .stor a) (ha : s.len ≤ cellIndex a) :
    exec i s = .next (raiseFault .addressOutOfRange s) := by
  rcases hi with rfl | rfl <;> exact checkAddr_of_ge ha _

end Effects

/-! ## The obligations -/

/-- Settles O29: no step of a run writes the program, and a data write leaves the instruction plane as it is. -/
theorem programIsConstantDuringExecution : Obligations.ProgramIsConstantDuringExecution := by
  constructor
  · intro s k t h
    obtain ⟨hpar, hlen, himem, hlst⟩ := runSteps_frame h
    exact ⟨himem, hlen, hlst, hpar, instrCell_congr himem⟩
  · intro a b v s t h
    obtain ⟨-, rfl⟩ := memWrite_eq_some h
    exact instrCell_congr (withData_imem a v s) b

/-- Settles O36. -/
theorem writeChangesOneCellOnly : Obligations.WriteChangesOneCellOnly := by
  intro a v s ha
  refine ⟨withData a v s, memWrite_of_lt ha, memRead_withData_self ha v,
    fun b hb => memRead_withData_other hb v s, rfl, fun c i hi hc => ?_⟩
  exact exec_storing_of_ge (by simpa using hi) hc

/-- Settles O56. -/
theorem accumulatorInstructionsLeaveTheRest : Obligations.AccumulatorInstructionsLeaveTheRest := by
  intro a i s t hi h
  have hacc : writesAcc i = true := by
    simp only [List.mem_cons, List.not_mem_nil, or_false] at hi
    rcases hi with rfl | rfl | rfl | rfl | rfl | rfl | rfl <;> rfl
  obtain ⟨r, -, rfl⟩ | ⟨v, rfl⟩ := (exec_effect h).of_writesAcc hacc
  · exact ⟨rfl, rfl, rfl, rfl, rfl, fun _ => rfl, fun _ => rfl, .inr ⟨rfl, rfl, rfl⟩⟩
  · exact ⟨rfl, rfl, rfl, rfl, rfl, fun _ => rfl, fun _ => rfl, .inl ⟨rfl, rfl, rfl⟩⟩

/-- Settles O57: a fault and a waiting READ leave every cell; a store leaves the cells other than its own. -/
theorem storingInstructionsChangeOneCellOnly : Obligations.StoringInstructionsChangeOneCellOnly := by
  intro a i s t hi h
  obtain ⟨r, -, rfl⟩ | ⟨-, -, rfl⟩ | ⟨v, vs, hv, rfl⟩ := (exec_effect h).of_storing (a := a) (by simpa using hi)
  · exact ⟨fun _ _ => rfl, rfl, rfl, rfl, rfl, rfl, rfl, fun _ => rfl, .inl rfl, .inr ⟨rfl, rfl, rfl, fun _ => rfl⟩⟩
  · exact ⟨fun _ _ => rfl, rfl, rfl, rfl, rfl, rfl, rfl, fun _ => rfl, .inl rfl, .inl ⟨rfl, rfl⟩⟩
  · refine ⟨fun b hb => dataCell_withData_other hb v (withInput vs s), rfl, rfl, rfl, rfl, rfl, rfl, fun _ => rfl, ?_,
      .inl ⟨rfl, rfl⟩⟩
    rcases hv with ⟨hread, hin⟩ | ⟨-, -, hvs⟩
    · exact .inr ⟨hread, by simp [hin]⟩
    · exact .inl hvs

/-- Settles O58. -/
theorem outputInstructionsChangeOnlyOutput : Obligations.OutputInstructionsChangeOnlyOutput := by
  intro a i s t hi h
  obtain ⟨r, -, rfl⟩ | ⟨f, -, rfl⟩ := (exec_effect h).of_output (a := a) (by simpa using hi)
  · exact ⟨fun _ => rfl, fun _ => rfl, rfl, rfl, rfl, rfl, rfl, .inr ⟨rfl, rfl, rfl⟩⟩
  · exact ⟨fun _ => rfl, fun _ => rfl, rfl, rfl, rfl, rfl, rfl, .inl ⟨rfl, rfl, by simp⟩⟩

/-- Settles O59: a branch faults, jumps or advances; HALT enters Halted and advances. -/
theorem controlInstructionsChangeOnlyPcAndStatus : Obligations.ControlInstructionsChangeOnlyPcAndStatus := by
  intro a i s t hi h
  have hclass : operandClass i = .branch ∨ i = .halt a := by
    simp only [List.mem_cons, List.not_mem_nil, or_false] at hi
    rcases hi with rfl | rfl | rfl | rfl
    · exact .inl rfl
    · exact .inl rfl
    · exact .inl rfl
    · exact .inr rfl
  rcases hclass with hbranch | rfl
  · obtain ⟨r, -, rfl⟩ | rfl | rfl := (exec_effect h).of_branch hbranch
    · exact ⟨fun _ => rfl, fun _ => rfl, rfl, rfl, rfl, rfl, rfl, rfl, .inr (.inl ⟨rfl, rfl⟩)⟩
    · exact ⟨fun _ => rfl, fun _ => rfl, rfl, rfl, rfl, rfl, rfl, rfl, .inl ⟨rfl, rfl⟩⟩
    · exact ⟨fun _ => rfl, fun _ => rfl, rfl, rfl, rfl, rfl, rfl, rfl, .inl ⟨rfl, rfl⟩⟩
  · cases h
    exact ⟨fun _ => rfl, fun _ => rfl, rfl, rfl, rfl, rfl, rfl, rfl, .inr (.inr ⟨rfl, rfl, rfl⟩)⟩

end Sys2Proof.Machine
end

section
/-! # Encoding: proofs of the statements about spec/30_encoding.md

The decoder is inverted by opcode: a code of the table selects the one instruction with that code, every other number is
illegal. The text form is treated through one iff for the accepted lines and through the value of decimal digits. -/

namespace Sys2Proof

/-! ## The opcode map -/

theorem codeOf_mem_legalOpcodes (i : Instr) : codeOf i ∈ legalOpcodes := by
  cases i <;> simp [codeOf, legalOpcodes]

/-- Every code of the table has two digits. -/
theorem lt_of_mem_legalOpcodes {n : Nat} (h : n ∈ legalOpcodes) : n < 100 :=
  (by decide : ∀ m ∈ legalOpcodes, m < 100) n h

theorem codeOf_lt (i : Instr) : codeOf i < 100 := lt_of_mem_legalOpcodes (codeOf_mem_legalOpcodes i)

/-- The map selects an instruction by its own code (R44). -/
theorem decodePair_codeOf (i : Instr) : decodePair (codeOf i) (operandOf i) = .instr i := by
  cases i <;> rfl

/-- A code of the table with an operand is the pair of some instruction (R44). -/
theorem exists_instr_of_mem {n : Nat} (h : n ∈ legalOpcodes) (a : Operand) :
    ∃ i, codeOf i = n ∧ operandOf i = a := by
  simp only [legalOpcodes, List.mem_cons, List.not_mem_nil, or_false] at h
  rcases h with rfl | rfl | rfl | rfl | rfl | rfl | rfl | rfl | rfl | rfl | rfl | rfl | rfl | rfl | rfl
  exacts [⟨.read a, rfl, rfl⟩, ⟨.writ a, rfl, rfl⟩, ⟨.prnt a, rfl, rfl⟩, ⟨.load a, rfl, rfl⟩, ⟨.stor a, rfl, rfl⟩,
    ⟨.set a, rfl, rfl⟩, ⟨.add a, rfl, rfl⟩, ⟨.sub a, rfl, rfl⟩, ⟨.div a, rfl, rfl⟩, ⟨.mult a, rfl, rfl⟩,
    ⟨.mod a, rfl, rfl⟩, ⟨.bran a, rfl, rfl⟩, ⟨.brng a, rfl, rfl⟩, ⟨.brzr a, rfl, rfl⟩, ⟨.halt a, rfl, rfl⟩]

/-- Every number outside the table is illegal (R46). -/
theorem decodePair_of_not_mem {n : Nat} (h : n ∉ legalOpcodes) (a : Operand) : decodePair n a = .illegal n := by
  unfold decodePair
  split
  case h_16 => rfl
  all_goals simp [legalOpcodes] at h

/-! ## The word of an instruction -/

/-- As a number a word is `opcode * 65536 + operand` (R41). -/
theorem toNat_wordOf {c : Nat} (hc : c < 256) (a : Operand) : (wordOf c a).toNat = c * 65536 + a.toNat := by
  have happ : (wordOf c a).toNat = (BitVec.ofNat 8 c).toNat <<< 16 ||| a.toNat := BitVec.toNat_append _ _
  rw [happ, BitVec.toNat_ofNat, Nat.mod_eq_of_lt hc, ← Nat.shiftLeft_add_eq_or_of_lt a.isLt, Nat.shiftLeft_eq]

theorem decode_wordOf {c : Nat} (hc : c < 256) (a : Operand) : decode (wordOf c a) = decodePair c a := by
  rw [decode, opcodeField_wordOf, operandField_wordOf, BitVec.toNat_ofNat, Nat.mod_eq_of_lt hc]

/-- The opcode byte of an instruction's word is its decimal code (R41, R44). -/
theorem toNat_opcodeField_encode (i : Instr) : (opcodeField (encode i)).toNat = codeOf i := by
  have := codeOf_lt i
  rw [encode, opcodeField_wordOf, BitVec.toNat_ofNat, Nat.mod_eq_of_lt (by omega)]

theorem decode_encode (i : Instr) : decode (encode i) = .instr i := by
  have := codeOf_lt i
  rw [encode, decode_wordOf (by omega), decodePair_codeOf]

/-- A word whose opcode is in the table is the word of an instruction. -/
theorem exists_encode_eq {w : InstrWord} (h : (opcodeField w).toNat ∈ legalOpcodes) : ∃ i, encode i = w := by
  obtain ⟨i, hcode, hoperand⟩ := exists_instr_of_mem h (operandField w)
  refine ⟨i, ?_⟩
  calc encode i = BitVec.ofNat 8 (opcodeField w).toNat ++ operandField w := by rw [encode, wordOf, hcode, hoperand]
    _ = opcodeField w ++ operandField w := by rw [BitVec.ofNat_toNat, BitVec.setWidth_eq]
    _ = w := append_fields w

/-- Illegal are exactly the words whose opcode is not in the table (R46). -/
theorem exists_illegal_iff (w : InstrWord) :
    (∃ n, decode w = .illegal n) ↔ (opcodeField w).toNat ∉ legalOpcodes := by
  constructor
  · rintro ⟨n, hn⟩ hmem
    obtain ⟨i, rfl⟩ := exists_encode_eq hmem
    rw [decode_encode] at hn
    cases hn
  · exact fun h => ⟨_, decodePair_of_not_mem h _⟩

/-- Outside the table are 85 of the 100 two-digit numbers and every number after them (R46). -/
theorem length_filter_not_mem_legalOpcodes (k : Nat) :
    ((List.range (100 + k)).filter fun n => n ∉ legalOpcodes).length = 85 + k := by
  have htwo : ((List.range 100).filter fun n => n ∉ legalOpcodes).length = 85 := by decide
  have hrest : ∀ n ∈ (List.range k).map (100 + ·), decide (n ∉ legalOpcodes) = true := by
    simp only [List.mem_map, decide_eq_true_iff]
    rintro _ ⟨j, -, rfl⟩ hmem
    have := lt_of_mem_legalOpcodes hmem
    omega
  rw [List.range_add, List.filter_append, List.length_append, htwo, List.filter_eq_self.2 hrest, List.length_map,
    List.length_range]

/-- Among the first `100 + k` opcode bytes a test for illegal words finds the `85 + k` outside the table (R46). -/
theorem length_filter_illegal_bytes {k : Nat} (hk : 100 + k ≤ 256) {p : Nat → Bool}
    (hp : ∀ n, p n = true ↔ ∃ m, decode (wordOf n 0#16) = .illegal m) :
    ((List.range (100 + k)).filter p).length = 85 + k := by
  rw [← length_filter_not_mem_legalOpcodes]
  refine congrArg List.length (List.filter_congr fun n hn => ?_)
  have hlt : n < 256 := (List.mem_range.1 hn).trans_le hk
  rw [Bool.eq_iff_iff, hp, exists_illegal_iff, opcodeField_wordOf, BitVec.toNat_ofNat, Nat.mod_eq_of_lt hlt,
    decide_eq_true_iff]

end Sys2Proof

namespace Sys2Proof.Machine

/-! ## Decimal digits -/

theorem decimalValue_append_singleton (cs : List Char) (c : Char) :
    decimalValue (cs ++ [c]) = 10 * decimalValue cs + digitValue c := by
  rw [decimalValue, List.foldl_append]; rfl

theorem toNat_digitChar (n : Nat) : (digitChar n).toNat = 48 + n % 10 := by
  have hlt : n % 10 < 10 := Nat.mod_lt n (by decide)
  rw [digitChar, Char.toNat_ofNat, if_pos (.inl (by omega))]

theorem isDigit_digitChar (n : Nat) : isDigit (digitChar n) = true := by
  rw [isDigit, toNat_digitChar, decide_eq_true_iff]
  omega

theorem digitValue_digitChar (n : Nat) : digitValue (digitChar n) = n % 10 := by
  rw [digitValue, toNat_digitChar, Nat.add_sub_cancel_left]

@[simp] theorem length_decimalDigits (width n : Nat) : (decimalDigits width n).length = width := by
  induction width generalizing n with
  | zero => rfl
  | succ width ih => simp [decimalDigits, ih]

theorem all_isDigit_decimalDigits (width n : Nat) : (decimalDigits width n).all isDigit = true := by
  induction width generalizing n with
  | zero => rfl
  | succ width ih => simp only [decimalDigits, List.all_append, ih, List.all_cons, isDigit_digitChar, List.all_nil,
      Bool.and_self]

/-- A number that fits the width is the value of its digits. -/
theorem decimalValue_decimalDigits {width n : Nat} (h : n < 10 ^ width) :
    decimalValue (decimalDigits width n) = n := by
  induction width generalizing n with
  | zero => rw [Nat.lt_one_iff.1 h]; rfl
  | succ width ih =>
    have hdiv : n / 10 < 10 ^ width := Nat.div_lt_of_lt_mul (by rwa [← Nat.pow_succ'])
    rw [decimalDigits, decimalValue_append_singleton, ih hdiv, digitValue_digitChar, Nat.div_add_mod]

/-- Digits spell a number that fits their width. -/
theorem decimalValue_lt {cs : List Char} (h : cs.all isDigit = true) : decimalValue cs < 10 ^ cs.length := by
  induction cs using List.reverseRecOn with
  | nil => exact Nat.one_pos
  | append_singleton cs c ih =>
    simp only [List.all_append, List.all_cons, List.all_nil, Bool.and_true, Bool.and_eq_true] at h
    obtain ⟨hcs, hc⟩ := h
    have hval : digitValue c < 10 := by
      simp only [isDigit, decide_eq_true_iff] at hc
      simp only [digitValue]
      omega
    have hlt := ih hcs
    rw [decimalValue_append_singleton, List.length_append, List.length_singleton, Nat.pow_succ]
    omega

/-! ## Object lines -/

/-- The accepted lines and the word each decodes to (R56). -/
theorem parseLine_eq_some_iff {l : ObjectLine} {w : InstrWord} : parseLine l = some w ↔
    l.all isDigit = true ∧ 3 ≤ l.length ∧ decimalValue (l.take 2) ∈ legalOpcodes ∧
    (l.drop 2).length ≤ literalBound (decimalValue (l.take 2)) ∧
    w = wordOf (decimalValue (l.take 2)) (BitVec.ofNat 16 (decimalValue (l.drop 2))) := by
  match l with
  | [] | [_] | [_, _] => simp [parseLine]
  | c1 :: c2 :: c3 :: rest =>
    simp only [parseLine, Option.ite_none_right_eq_some, Option.some.injEq, and_assoc, eq_comm (a := w)]
    simp

/-- An accepted line decodes to the word of an instruction the text form can spell. -/
theorem exists_spellable_of_parseLine {l : ObjectLine} {w : InstrWord} (h : parseLine l = some w) :
    ∃ i, encode i = w ∧ spellable i = true := by
  obtain ⟨hdigits, -, hcode, hlen, rfl⟩ := parseLine_eq_some_iff.1 h
  obtain ⟨i, hi, hop⟩ := exists_instr_of_mem hcode (BitVec.ofNat 16 (decimalValue (l.drop 2)))
  refine ⟨i, by rw [encode, hi, hop], (spellable_iff i).2 ?_⟩
  have hdrop : (l.drop 2).all isDigit = true :=
    List.all_eq_true.2 fun c hc => List.all_eq_true.1 hdigits c (List.mem_of_mem_drop hc)
  calc (operandOf i).toNat ≤ decimalValue (l.drop 2) := by rw [hop, BitVec.toNat_ofNat]; exact Nat.mod_le _ _
    _ < 10 ^ (l.drop 2).length := decimalValue_lt hdrop
    _ ≤ 10 ^ literalBound (codeOf i) := by rw [hi]; exact Nat.pow_le_pow_right (by decide) hlen

theorem literalBound_pos (code : Nat) : 1 ≤ literalBound code := by
  rw [literalBound]
  split <;> decide

theorem take_objectLine (i : Instr) : (objectLine i).take 2 = decimalDigits 2 (codeOf i) :=
  List.take_left' (length_decimalDigits 2 _)

theorem drop_objectLine (i : Instr) :
    (objectLine i).drop 2 = decimalDigits (literalBound (codeOf i)) (operandOf i).toNat :=
  List.drop_left' (length_decimalDigits 2 _)

/-- The object line of a spellable instruction is accepted and gives its word (R42). -/
theorem parseLine_objectLine {i : Instr} (h : spellable i = true) : parseLine (objectLine i) = some (encode i) := by
  have hcode : decimalValue (decimalDigits 2 (codeOf i)) = codeOf i := decimalValue_decimalDigits (codeOf_lt i)
  have hoperand := decimalValue_decimalDigits ((spellable_iff i).1 h)
  rw [parseLine_eq_some_iff, take_objectLine, drop_objectLine, hcode, hoperand, BitVec.ofNat_toNat, BitVec.setWidth_eq,
    length_decimalDigits]
  refine ⟨?_, ?_, codeOf_mem_legalOpcodes i, Nat.le_refl _, rfl⟩
  · rw [objectLine, List.all_append, all_isDigit_decimalDigits, all_isDigit_decimalDigits, Bool.and_self]
  · have := literalBound_pos (codeOf i)
    rw [objectLine, List.length_append, length_decimalDigits, length_decimalDigits]
    omega

/-! ## The loaded program -/

/-- A load that ends Done is the loader's loop, on at most CAP lines, each of them accepted (R58 to R61). -/
theorem load_of_done {lines : List ObjectLine} {s : State} (hi : s.lstatus = .idle)
    (hd : (load lines s).lstatus = .done) :
    lines.length ≤ s.par.cap ∧ load lines s = loadFrom 0 lines s ∧ ∀ l ∈ lines, (parseLine l).isSome := by
  have hlen : lines.length ≤ s.par.cap := by
    by_contra hgt
    rw [load, if_pos hi, if_pos (Nat.not_le.1 hgt)] at hd
    cases hd
  refine ⟨hlen, load_of_fits hi hlen, fun l hl => ?_⟩
  cases hp : parseLine l with
  | some w => rfl
  | none =>
    rw [load_of_fits hi hlen, loadFrom_of_rejected ⟨l, hl, hp⟩] at hd
    cases hd

/-- After a load that ends Done, every cell below LEN holds the word of an accepted line (R57, R61). -/
theorem exists_line_of_load_done {lines : List ObjectLine} {s : State} (hi : s.lstatus = .idle)
    (hd : (load lines s).lstatus = .done) {k : Nat} (hk : k < (load lines s).len) :
    ∃ l ∈ lines, ∃ w, parseLine l = some w ∧ lookupCell k (load lines s).imem = some w := by
  obtain ⟨-, heq, hacc⟩ := load_of_done hi hd
  rw [heq] at hk ⊢
  obtain ⟨-, hcount, -⟩ := loadFrom_of_accepted hacc 0 s
  rw [hcount, Nat.zero_add] at hk
  have hmem := List.getElem_mem hk
  obtain ⟨w, hw⟩ := Option.isSome_iff_exists.1 (hacc _ hmem)
  have hcell := lookupCell_loadFrom hacc 0 s (List.getElem?_eq_getElem hk)
  rw [Nat.zero_add, hw] at hcell
  exact ⟨_, hmem, w, hw, hcell⟩

/-! ## The obligations -/

/-- Settles O1: the fields of the word are the instruction's code and operand, and the code selects the instruction. -/
theorem decodeOfEncodeIsTheInstruction : Obligations.DecodeOfEncodeIsTheInstruction := decode_encode

/-- Settles O2: a word with an opcode of the table is the word of an instruction, and decoding is injective there. -/
theorem everyWordIsOneInstructionOrIllegal : Obligations.EveryWordIsOneInstructionOrIllegal := by
  refine fun w => ⟨?_, fun v hv => by rw [exists_illegal_iff, exists_illegal_iff, opcodeField, opcodeField, hv]⟩
  by_cases h : (opcodeField w).toNat ∈ legalOpcodes
  · obtain ⟨i, rfl⟩ := exists_encode_eq h
    refine .inl ⟨i, decode_encode i, rfl, fun j hj => ?_⟩
    have hdec := congrArg decode hj
    rw [decode_encode, decode_encode] at hdec
    exact Decoded.instr.inj hdec
  · refine .inr ⟨(exists_illegal_iff w).2 h, ?_⟩
    rintro i rfl
    exact h (toNat_opcodeField_encode i ▸ codeOf_mem_legalOpcodes i)

/-- Settles O3: the two counts are of the numbers outside the table; the loader accepts only lines whose word is an
instruction's. -/
theorem illegalWordsAreTheOtherOpcodes : Obligations.IllegalWordsAreTheOtherOpcodes := by
  have htest (d : Decoded) : (match d with | .illegal _ => true | .instr _ => false) = true ↔ ∃ n, d = .illegal n := by
    cases d <;> simp
  refine ⟨exists_illegal_iff, ?_, ?_, fun l hcode => ?_, fun s n hl hs hcap hlen hn => ?_, fun lines s hi hd k hk => ?_⟩
  · exact length_filter_illegal_bytes (k := 156) (by decide) fun n => htest (decode (wordOf n 0#16))
  · exact length_filter_illegal_bytes (k := 0) (by decide) fun n => htest (decode (wordOf n 0#16))
  · refine Option.eq_none_iff_forall_ne_some.2 fun w hw => ?_
    obtain ⟨-, -, hmem, -⟩ := parseLine_eq_some_iff.1 hw
    exact hcode hmem
  · exact step_of_fault ⟨hl, hs⟩ (fetchDecode_inl.2 (.inr (.inr ⟨hcap, hlen, rfl, n, hn⟩)))
  · obtain ⟨l, -, w, hw, hcell⟩ := exists_line_of_load_done hi hd hk
    obtain ⟨i, rfl, -⟩ := exists_spellable_of_parseLine hw
    exact ⟨i, by rw [instrCell, hcell, Option.getD_some, decode_encode]⟩

/-- Settles O5. -/
theorem binaryFormIsOpcodeThenOperand : Obligations.BinaryFormIsOpcodeThenOperand := fun i =>
  ⟨rfl, toNat_opcodeField_encode i, operandField_wordOf _ _,
    toNat_wordOf ((codeOf_lt i).trans (by decide)) (operandOf i)⟩

/-- Settles O7: the digits of the line spell the code and the operand; conversely at most as many digits as the literal
may have spell an operand that the text form can spell. -/
theorem objectLinesRoundTrip : Obligations.ObjectLinesRoundTrip := by
  refine ⟨fun _ => parseLine_objectLine, fun l w hw => ?_⟩
  obtain ⟨i, rfl, hi⟩ := exists_spellable_of_parseLine hw
  exact ⟨i, decode_encode i, hi⟩

/-- Settles O4: the word of each row is the encoding of the row's instruction. -/
theorem opcodeMapSelectsTheInstruction : Obligations.OpcodeMapSelectsTheInstruction := by
  have row (i : Instr) : decode (encode i) = .instr i ∧ codeOf i = codeOf i ∧ operandClass i = operandClass i :=
    ⟨decode_encode i, rfl, rfl⟩
  exact fun a => ⟨row (.read a), row (.writ a), row (.prnt a), row (.load a), row (.stor a), row (.set a), row (.add a),
    row (.sub a), row (.div a), row (.mult a), row (.mod a), row (.bran a), row (.brng a), row (.brzr a), row (.halt a)⟩

end Sys2Proof.Machine
end

section
/-! # The loader: proofs of the statements about spec/40_loader.md

An accepted line is characterised by the two fields of its word; a load from Idle is one of three: too many lines, a
rejected line, or every line stored. -/

namespace Sys2Proof

/-- A word is `opcode ++ operand` exactly when its two fields, as numbers, are these (R41). -/
theorem eq_wordOf_ofNat_iff {w : InstrWord} {c n : Nat} (hc : c < 256) (hn : n < 65536) :
    w = wordOf c (BitVec.ofNat 16 n) ↔ (opcodeField w).toNat = c ∧ (operandField w).toNat = n := by
  constructor
  · rintro rfl
    rw [opcodeField_wordOf, operandField_wordOf, BitVec.toNat_ofNat, BitVec.toNat_ofNat]
    exact ⟨Nat.mod_eq_of_lt hc, Nat.mod_eq_of_lt hn⟩
  · rintro ⟨rfl, rfl⟩
    rw [wordOf, BitVec.ofNat_toNat, BitVec.ofNat_toNat, BitVec.setWidth_eq, BitVec.setWidth_eq, append_fields]

end Sys2Proof

namespace Sys2Proof.Machine

/-! ## Accepted lines -/

theorem isDigit_iff (c : Char) : isDigit c = true ↔ '0' ≤ c ∧ c ≤ '9' := decide_eq_true_iff

theorem all_isDigit_iff {l : List Char} : l.all isDigit = true ↔ ∀ c ∈ l, '0' ≤ c ∧ c ≤ '9' := by
  simp only [List.all_eq_true, isDigit_iff]

theorem literalBound_le (code : Nat) : literalBound code ≤ 4 := by
  rw [literalBound]
  split <;> decide

/-- A literal within its bound fits the operand field. -/
theorem decimalValue_drop_lt {l : ObjectLine} {code : Nat} (hdigits : l.all isDigit = true)
    (hlen : (l.drop 2).length ≤ literalBound code) : decimalValue (l.drop 2) < 65536 := by
  have hdrop : (l.drop 2).all isDigit = true :=
    List.all_eq_true.2 fun c hc => List.all_eq_true.1 hdigits c (List.mem_of_mem_drop hc)
  calc decimalValue (l.drop 2) < 10 ^ (l.drop 2).length := decimalValue_lt hdrop
    _ ≤ 10 ^ 4 := Nat.pow_le_pow_right (by decide) (hlen.trans (literalBound_le code))
    _ < 65536 := by decide

/-- The accepted lines and the two fields of the word each decodes to (R56). -/
theorem parseLine_eq_some_iff_fields {l : ObjectLine} {w : InstrWord} : parseLine l = some w ↔
    (∀ c ∈ l, '0' ≤ c ∧ c ≤ '9') ∧ 3 ≤ l.length ∧ decimalValue (l.take 2) ∈ legalOpcodes ∧
    (l.drop 2).length ≤ literalBound (decimalValue (l.take 2)) ∧
    (opcodeField w).toNat = decimalValue (l.take 2) ∧ (operandField w).toNat = decimalValue (l.drop 2) := by
  rw [parseLine_eq_some_iff, ← all_isDigit_iff]
  refine and_congr_right fun hdigits => and_congr_right fun _ => and_congr_right fun hcode => and_congr_right fun hlen =>
    eq_wordOf_ofNat_iff ?_ (decimalValue_drop_lt hdigits hlen)
  exact (lt_of_mem_legalOpcodes hcode).trans (by decide)

/-- The fields of an accepted line's word: a code of the table, and an operand its literal can spell (R56). -/
theorem fields_of_parseLine {l : ObjectLine} {w : InstrWord} (h : parseLine l = some w) :
    (opcodeField w).toNat ∈ legalOpcodes ∧ (operandField w).toNat < 10 ^ literalBound (opcodeField w).toNat := by
  obtain ⟨i, rfl, hi⟩ := exists_spellable_of_parseLine h
  rw [toNat_opcodeField_encode, encode, operandField_wordOf]
  exact ⟨codeOf_mem_legalOpcodes i, (spellable_iff i).1 hi⟩

/-- What the bound on the literal's digits means for the number it spells (R54). -/
theorem le_of_lt_pow_literalBound {n code : Nat} (h : n < 10 ^ literalBound code) :
    n ≤ 9999 ∧ (code ≠ 22 → n ≤ 99) := by
  by_cases hcode : code = 22
  · rw [literalBound, if_pos hcode, Config.immDigits] at h
    exact ⟨by omega, fun hne => absurd hcode hne⟩
  · rw [literalBound, if_neg hcode, Config.addrDigits] at h
    exact ⟨by omega, fun _ => by omega⟩

/-! ## The three ends of a load -/

section Ends
variable {lines : List ObjectLine} {s : State}

/-- More lines than CAP end the load before anything is stored (R58). -/
theorem load_of_too_many (hi : s.lstatus = .idle) (hl : s.par.cap < lines.length) :
    load lines s = { s with lstatus := .failed .programTooLarge } := by
  rw [load, if_pos hi, if_pos hl]

/-- A rejected line ends the load with InternalConsistency (R59, R60). -/
theorem load_lstatus_of_rejected (hi : s.lstatus = .idle) (hl : lines.length ≤ s.par.cap)
    (h : ∃ l ∈ lines, parseLine l = none) : (load lines s).lstatus = .failed .internalConsistency := by
  rw [load_of_fits hi hl, loadFrom_of_rejected h]

/-- A load that accepts every line writes IMEM, LEN and LSTATUS and nothing else (R55, R61). -/
theorem load_of_accepted (hi : s.lstatus = .idle) (hl : lines.length ≤ s.par.cap)
    (h : ∀ l ∈ lines, (parseLine l).isSome) :
    load lines s = { s with imem := (load lines s).imem, len := lines.length, lstatus := .done } := by
  obtain ⟨hdone, hcount, -⟩ := loadFrom_of_accepted h 0 s
  rw [Nat.zero_add] at hcount
  rw [load_of_fits hi hl]
  conv_lhs => rw [loadFrom_frame, hdone, hcount]

/-- A load that accepts every line puts the word of line `k` into IMEM[k] (R57). -/
theorem parseLine_eq_instrCell_load (hi : s.lstatus = .idle) (hl : lines.length ≤ s.par.cap)
    (h : ∀ l ∈ lines, (parseLine l).isSome) {k : Nat} {l : ObjectLine} (hk : lines[k]? = some l) :
    parseLine l = some (instrCell k (load lines s)) := by
  have hcell := lookupCell_loadFrom h 0 s hk
  rw [Nat.zero_add] at hcell
  obtain ⟨w, hw⟩ := Option.isSome_iff_exists.1 (h l (List.mem_of_getElem? hk))
  rw [load_of_fits hi hl, instrCell, hcell, hw, Option.getD_some]

/-- A load of at most CAP lines succeeds or fails on a rejected line (R59 to R61). -/
theorem load_lstatus_of_fits (hi : s.lstatus = .idle) (hl : lines.length ≤ s.par.cap) :
    (load lines s).lstatus = .done ∨ (load lines s).lstatus = .failed .internalConsistency := by
  by_cases h : ∃ l ∈ lines, parseLine l = none
  · exact .inr (load_lstatus_of_rejected hi hl h)
  · refine .inl ?_
    rw [load_of_accepted hi hl fun l hm => Option.isSome_iff_ne_none.2 fun hn => h ⟨l, hm, hn⟩]

/-- A load from Idle fails with ProgramTooLarge exactly when there are more lines than CAP (R58). -/
theorem load_programTooLarge_iff (hi : s.lstatus = .idle) :
    (load lines s).lstatus = .failed .programTooLarge ↔ s.par.cap < lines.length := by
  constructor
  · intro h
    by_contra hl
    rcases load_lstatus_of_fits hi (Nat.not_lt.1 hl) with hd | hf
    · cases hd.symm.trans h
    · cases hf.symm.trans h
  · exact fun hl => by rw [load_of_too_many hi hl]

end Ends

/-- A state in which no step is enabled is left by no run (R65; log 2). -/
theorem runSteps_of_disabled {s : State} (h : ¬ stepEnabled s) (k : Nat) : runSteps k s = .next s := by
  induction k with
  | zero => rfl
  | succ k ih => rw [runSteps_succ (step_of_disabled h), ih]

/-! ## The obligations -/

/-- Settles O8: the accepted line's word is determined by its two fields, which hold the code and the literal whole. -/
theorem acceptedLinesAreExactlyTheWellFormed : Obligations.AcceptedLinesAreExactlyTheWellFormed :=
  ⟨rfl, decimalValue_append_singleton, fun _ _ => parseLine_eq_some_iff_fields⟩

/-- Settles O9: the capacity check is the only source of ProgramTooLarge, and it comes before the first store. -/
theorem loadingMoreLinesThanCapacityFails : Obligations.LoadingMoreLinesThanCapacityFails := fun _ _ hi =>
  ⟨load_of_too_many hi, fun hl hf => absurd ((load_programTooLarge_iff hi).1 hf) (Nat.not_lt.2 hl)⟩

/-- Settles O10: a line accepted would meet all four conditions of R56. -/
theorem loadingRejectedLineFails : Obligations.LoadingRejectedLineFails := by
  rintro lines s hi hl ⟨l, hm, hbad⟩
  refine load_lstatus_of_rejected hi hl ⟨l, hm, Option.eq_none_iff_forall_ne_some.2 fun w hw => ?_⟩
  obtain ⟨hdigits, hlen, hcode, hliteral, -⟩ := parseLine_eq_some_iff_fields.1 hw
  rcases hbad with ⟨c, hc, hlow | hhigh⟩ | hshort | hunknown | hlong
  · exact absurd hlow (not_lt.2 (hdigits c hc).1)
  · exact absurd hhigh (not_lt.2 (hdigits c hc).2)
  · exact absurd hshort (Nat.not_lt.2 hlen)
  · exact hunknown hcode
  · exact absurd hlong (Nat.not_lt.2 hliteral)

/-- Settles O11, from what the loader's loop leaves when it accepts every line. -/
theorem loadStoresEachLineAtItsIndex : Obligations.LoadStoresEachLineAtItsIndex := by
  intro lines s hi hl hlines
  have hacc : ∀ l ∈ lines, (parseLine l).isSome := fun l hm => Option.isSome_iff_ne_none.2 (hlines l hm)
  exact ⟨_, rfl, load_of_accepted hi hl hacc, fun _ _ hk => parseLine_eq_instrCell_load hi hl hacc hk⟩

/-- Settles O12: every cell below LEN holds the word of an accepted line. -/
theorem loadedProgramIsLegal : Obligations.LoadedProgramIsLegal := by
  intro lines s hi hd
  obtain ⟨hl, -, hacc⟩ := load_of_done hi hd
  refine ⟨by rw [load_of_accepted hi hl hacc]; exact hl, fun k hk => ?_⟩
  obtain ⟨l, -, w, hw, hcell⟩ := exists_line_of_load_done hi hd hk
  obtain ⟨hcode, hoperand⟩ := fields_of_parseLine hw
  exact ⟨w, hcell, hcode, le_of_lt_pow_literalBound hoperand⟩

/-- Settles O14: with LSTATUS Failed no step is enabled, and the load left every item but IMEM, LEN and LSTATUS as
created. -/
theorem failedLoadNeverStarts : Obligations.FailedLoadNeverStarts := by
  intro p queued lines why hf
  have hdisabled : ¬ stepEnabled (startRun p queued lines) := fun ⟨hdone, _⟩ => by cases hf.symm.trans hdone
  have hwhy : why = .programTooLarge ↔ p.cap < lines.length := by
    have hiff := load_programTooLarge_iff (lines := lines) (s := State.created p queued) rfl
    rw [← startRun, hf, LoadStatus.failed.injEq] at hiff
    exact hiff
  have hframe := load_frame lines (State.created p queued)
  exact ⟨runSteps_of_disabled hdisabled, congrArg State.output hframe, congrArg State.input hframe,
    congrArg State.status hframe, congrArg State.fault hframe, hwhy⟩

end Sys2Proof.Machine
end

section
/-! # The step: proofs of the statements about spec/41_engine_cycle.md

The fetch checks are read off `fetchDecode_inl` and `fetchDecode_inr`. Two facts carry the rest: a step into Faulted is a
`raiseFault`, and a step that does not fault runs the instruction decoded at the PC. -/

namespace Sys2Proof.Machine

section Cycle
variable {s t : State} {i : Instr}

/-! ## Taking a fault -/

/-- An instruction that enters Faulted takes a fault (R70). -/
theorem Effect.of_faulted (h : Effect s i t) (hs : s.status ≠ .faulted) (ht : t.status = .faulted) :
    ∃ r, r ≠ .none ∧ t = raiseFault r s := by
  cases h with
  | fault i r hr => exact ⟨r, hr, rfl⟩
  | halt => cases ht
  | _ => exact absurd ht hs

/-- A step that enters Faulted takes a fault, at fetch or in the instruction (R66, R70). -/
theorem step_of_faulted (h : step s = .next t) (hs : s.status ≠ .faulted) (ht : t.status = .faulted) :
    ∃ r, r ≠ .none ∧ t = raiseFault r s := by
  obtain ⟨-, rfl⟩ | ⟨-, r, hr, -, rfl⟩ | ⟨-, i, -, he⟩ := step_next h
  · exact absurd ht hs
  · exact ⟨r, hr, rfl⟩
  · exact he.of_faulted hs ht

/-! ## The bound check -/

/-- Every checked operand at or beyond LEN faults before anything else is done (R71). -/
theorem exec_of_operand_ge (hi : operandClass i = .data ∨ operandClass i = .branch)
    (ha : s.len ≤ cellIndex (operandOf i)) : exec i s = .next (raiseFault .addressOutOfRange s) := by
  cases i with
  | read a | stor a => exact checkAddr_of_ge ha _
  | writ a | prnt a | load a | add a | sub a | div a | mult a | mod a => exact withCell_of_ge ha _
  | bran a | brng a | brzr a => exact branchIf_of_ge ha
  | set k | halt x => simp [operandClass] at hi

theorem commitResult_fault_cases {r : Int} (h : commitResult r s = .next t) :
    t.fault = s.fault ∨ t.fault = .arithmeticOverflow := by
  obtain ⟨-, rfl⟩ | ⟨-, rfl⟩ := commitResult_next h
  · exact .inr rfl
  · exact .inl rfl

/-- Below LEN the access of a data instruction raises nothing: a fault is then raised by what follows it. -/
theorem withCell_next_of_lt {a : Operand} {k : Value → Answer} (ha : cellIndex a < s.len)
    (h : withCell a s k = .next t) : k (dataCell (cellIndex a) s) = .next t := by
  obtain ⟨hge, -⟩ | ⟨-, -, h⟩ := withCell_next h
  · exact absurd ha (Nat.not_lt.2 hge)
  · exact h

/-- With its operand below LEN an instruction leaves FAULT, or raises one of the two arithmetic faults (R71, R85, R89). -/
theorem exec_fault_cases_of_operand_lt (ha : cellIndex (operandOf i) < s.len) (h : exec i s = .next t) :
    t.fault = s.fault ∨ t.fault = .divisionByZero ∨ t.fault = .arithmeticOverflow := by
  cases i with
  | read a =>
    cases hin : s.input with
    | nil => cases (execRead_of_nil ha hin).symm.trans h; exact .inl rfl
    | cons v rest =>
      obtain ⟨-, rfl⟩ := storeAndAdvance_next ((execRead_of_cons ha hin).symm.trans h)
      exact .inl rfl
  | stor a =>
    obtain ⟨-, rfl⟩ := storeAndAdvance_next ((checkAddr_of_lt ha _).symm.trans h)
    exact .inl rfl
  | writ a | prnt a | load a => cases withCell_next_of_lt ha h; exact .inl rfl
  | add a | sub a | mult a => exact (commitResult_fault_cases (withCell_next_of_lt ha h)).imp_right .inr
  | div a =>
    have hk := withCell_next_of_lt ha h
    split at hk
    · cases hk; exact .inr (.inl rfl)
    · exact (commitResult_fault_cases hk).imp_right .inr
  | mod a =>
    have hk := withCell_next_of_lt ha h
    split at hk
    · cases hk; exact .inr (.inl rfl)
    · cases hk; exact .inl rfl
  | bran a | brng a | brzr a =>
    obtain ⟨hge, -⟩ | ⟨-, -, rfl⟩ | ⟨-, -, rfl⟩ := branchIf_next h
    · exact absurd ha (Nat.not_lt.2 hge)
    · exact .inl rfl
    · exact .inl rfl
  | set k | halt x => cases h; exact .inl rfl

/-! ## The PC -/

/-- A step that does not fault ran the instruction decoded at the PC (R67, R68). -/
theorem exec_of_step (he : stepEnabled s) (h : step s = .next t) (ht : t.status ≠ .faulted)
    (hd : decode (instrCell s.pc.toNat s) = .instr i) : exec i s = .next t := by
  cases hf : fetchDecode s with
  | inl r => cases (step_of_fault he hf).symm.trans h; exact absurd rfl ht
  | inr j =>
    obtain ⟨-, -, hj⟩ := fetchDecode_inr.1 hf
    cases hj.symm.trans hd
    exact (step_of_instr he hf).symm.trans h

/-- Without a branch and without a fault the PC advances, but for a READ that waits (R69). -/
theorem Effect.pc_of_not_branch (h : Effect s i t) (hi : operandClass i ≠ .branch) (ht : t.status ≠ .faulted) :
    ((∃ a, i = .read a) ∧ s.input = [] ∧ t.pc = s.pc) ∨
    ((∀ a, i = .read a → s.input ≠ []) ∧ t.pc = s.pc + 1#17) := by
  cases h with
  | fault => exact absurd rfl ht
  | stall a ha hin => exact .inl ⟨⟨a, rfl⟩, hin, rfl⟩
  | input a v rest ha hc hin => exact .inr ⟨fun _ _ => by simp [hin], rfl⟩
  | acc i v hw => exact .inr ⟨fun a ha => by simp [ha, writesAcc] at hw, rfl⟩
  | jump i hb | through i hb => exact absurd hb hi
  | raw | display | store | halt => exact .inr ⟨fun _ ha => (by cases ha), rfl⟩

/-- An instruction other than READ and the branches advances the PC unless it faults. -/
theorem Effect.pc_advances (h : Effect s i t) (hi : operandClass i ≠ .branch) (hread : ∀ a, i ≠ .read a)
    (ht : t.status ≠ .faulted) : t.pc = s.pc + 1#17 := by
  obtain ⟨⟨a, ha⟩, -⟩ | ⟨-, hpc⟩ := h.pc_of_not_branch hi ht
  · exact absurd ha (hread a)
  · exact hpc

/-- A branch that does not fault puts its operand into the PC exactly where its condition holds (R95). -/
theorem branchIf_pc {taken : Prop} [Decidable taken] {a : Operand} (h : branchIf taken a s = .next t)
    (ht : t.status ≠ .faulted) : (taken → t.pc.toNat = a.toNat) ∧ (¬ taken → t.pc = s.pc + 1#17) := by
  obtain ⟨-, rfl⟩ | ⟨-, hb, rfl⟩ | ⟨-, hb, rfl⟩ := branchIf_next h
  · exact absurd rfl ht
  · exact ⟨fun _ => targetPc_toNat a, absurd hb⟩
  · exact ⟨fun h => absurd h hb, fun _ => rfl⟩

/-- Below LEN the PC of a state that meets the invariant has room for its increment (R12, R69). -/
theorem Inv.toNat_pc_add_one (h : Inv s) (hpc : s.pc.toNat < s.len) : (s.pc + 1#17).toNat = s.pc.toNat + 1 := by
  obtain ⟨-, hcap⟩ := h.legal
  have hlen := h.len_le
  rw [BitVec.toNat_add]
  exact Nat.mod_eq_of_lt (show s.pc.toNat + 1 < 131072 by omega)

end Cycle

/-! ## The obligations -/

/-- Settles O19: at or beyond LEN the check fires in each class; below LEN only the arithmetic faults are left. -/
theorem everyAddressOperandIsBoundChecked : Obligations.EveryAddressOperandIsBoundChecked := by
  refine ⟨fun i s => exec_of_operand_ge, fun i s hi => ?_, fun i s t _ ha hnone h => ?_⟩
  · cases i with
    | set k => exact ⟨_, rfl, rfl, id⟩
    | halt x => exact ⟨_, rfl, rfl, fun _ => (by decide : RunStatus.halted ≠ .faulted)⟩
    | _ => simp [operandClass] at hi
  · obtain hf | hf | hf := exec_fault_cases_of_operand_lt ha h <;> simp [hf, hnone]

/-- Settles O20: the step is a `raiseFault`, and no step is enabled in a Faulted state. -/
theorem faultChangesOnlyStatusAndFault : Obligations.FaultChangesOnlyStatusAndFault := by
  intro s t hs h ht
  obtain ⟨r, hr, rfl⟩ := step_of_faulted h hs ht
  have hdisabled : ¬ stepEnabled (raiseFault r s) := fun ⟨_, hrun⟩ => by cases hrun
  exact ⟨rfl, hr, hdisabled, fun k u hu => by cases (runSteps_of_disabled hdisabled k).symm.trans hu; rfl⟩

/-- Settles O31: the three branches by their condition, READ by its queue, every other instruction by its advance. -/
theorem pcMovesAsEachRuleSays : Obligations.PcMovesAsEachRuleSays := by
  intro s t hl hrun h
  refine ⟨fun ht => ?_, fun ht i hd => ?_, Inv.toNat_pc_add_one⟩
  · obtain ⟨r, -, rfl⟩ := step_of_faulted h (by simp [hrun]) ht
    rfl
  · have hx := exec_of_step ⟨hl, hrun⟩ h ht hd
    have he := exec_effect hx
    cases i with
    | read a =>
      obtain ⟨-, hin, hpc⟩ | ⟨hin, hpc⟩ := he.pc_of_not_branch (by simp [operandClass]) ht
      · exact ⟨fun _ => hpc, absurd hin⟩
      · exact ⟨fun h => absurd h (hin a rfl), fun _ => hpc⟩
    | bran a => exact (branchIf_pc hx ht).1 trivial
    | brng a => exact (branchIf_pc hx ht).imp_right fun hpc hn => hpc (Int.not_lt.2 hn)
    | brzr a => exact branchIf_pc hx ht
    | _ => exact he.pc_advances (by simp [operandClass]) (by simp) ht

/-- Settles O15. -/
theorem stepRunsTheDecodedInstruction : Obligations.StepRunsTheDecodedInstruction :=
  fun _ _ hl hrun hcap hlen hd => step_of_instr ⟨hl, hrun⟩ (fetchDecode_inr.2 ⟨hcap, hlen, hd⟩)

/-- Settles O16. -/
theorem disabledStepChangesNothing : Obligations.DisabledStepChangesNothing :=
  fun _ => step_of_disabled

/-- Settles O17: each of the four ends of the fetch, and at CAP the invariant's `pc ≤ LEN ≤ CAP`. -/
theorem fetchChecksCapacityThenLength : Obligations.FetchChecksCapacityThenLength := by
  intro s hl hrun
  refine ⟨fun hcap => ?_, fun hcap hlen => ?_, fun hcap hlen => ?_, fun hinv hcap => ?_⟩
  · exact step_of_fault ⟨hl, hrun⟩ (fetchDecode_inl.2 (.inl ⟨hcap, rfl⟩))
  · exact step_of_fault ⟨hl, hrun⟩ (fetchDecode_inl.2 (.inr (.inl ⟨hcap, hlen, rfl⟩)))
  · cases hd : decode (instrCell s.pc.toNat s) with
    | instr i => exact stepRunsTheDecodedInstruction s i hl hrun hcap hlen hd
    | illegal n => exact step_of_fault ⟨hl, hrun⟩ (fetchDecode_inl.2 (.inr (.inr ⟨hcap, hlen, rfl, n, hd⟩)))
  · have hlen := hinv.len_le
    have hpc := hinv.pc_le
    omega

end Sys2Proof.Machine
end

section
/-! # Input and output: proofs of the statements about spec/42_io.md

At or beyond LEN all three instructions fault by `exec_of_operand_ge`. Below it READ is its wait or its store, and
WRIT and PRNT emit the cell they read. -/

namespace Sys2Proof.Machine

/-- READ of an existing cell with a value in IN moves the oldest value into that cell and advances (R75). -/
theorem exec_read_of_cons {a : Operand} {s : State} (ha : cellIndex a < s.len) (hc : cellIndex a < s.par.cap)
    {v : Value} {rest : List Value} (hin : s.input = v :: rest) :
    exec (.read a) s = .next (advancePc (withData (cellIndex a) v (withInput rest s))) :=
  (execRead_of_cons ha hin).trans (storeAndAdvance_of_lt (s := withInput rest s) hc v)

/-! ## The obligations -/

/-- Settles O39: the check, the wait and the store are READ's three ends; the store is seen at its own cell only. -/
theorem readStoresTheOldestInput : Obligations.ReadStoresTheOldestInput := by
  intro a s
  have hcode : decimalDigits 2 (codeOf (.read a)) = ['1', '0'] := (by decide : decimalDigits 2 10 = ['1', '0'])
  refine ⟨rfl, (take_objectLine (.read a)).trans hcode, fun ha => exec_of_operand_ge (.inl rfl) ha,
    fun ha hin => execRead_of_nil ha hin, fun ha hc v rest hin => ?_⟩
  exact ⟨_, exec_read_of_cons ha hc hin, rfl, dataCell_withData_self _ v (withInput rest s),
    fun b hb => dataCell_withData_other hb v (withInput rest s)⟩

/-- Settles O40: `withCell` faults at or beyond LEN, and gives the emit the value of an existing cell. -/
theorem writEmitsTheCell : Obligations.WritEmitsTheCell := fun _ _ =>
  ⟨rfl, fun ha => exec_of_operand_ge (.inl rfl) ha, fun ha hc => withCell_of_lt ha hc _⟩

/-- Settles O41, as O40 with the other tag. -/
theorem prntEmitsTheCell : Obligations.PrntEmitsTheCell := fun _ _ =>
  ⟨rfl, fun ha => exec_of_operand_ge (.inl rfl) ha, fun ha hc => withCell_of_lt ha hc _⟩

end Sys2Proof.Machine
end

section
/-! # Accumulator transfer: proofs of the statements about spec/43_load_store.md

At or beyond LEN both LOAD and STOR fault by `exec_of_operand_ge`. Below it LOAD and STOR of an existing cell have one
next state each; STOR followed by LOAD is the two in a row. SET has one next state, and no check. -/

namespace Sys2Proof.Machine

/-- LOAD of an existing cell copies it into the accumulator and advances (R80). -/
theorem exec_load_of_lt {a : Operand} {s : State} (ha : cellIndex a < s.len) (hc : cellIndex a < s.par.cap) :
    exec (.load a) s = .next (advancePc (setAcc (dataCell (cellIndex a) s) s)) := withCell_of_lt ha hc _

/-- STOR to an existing cell writes the accumulator there and advances (R81). -/
theorem exec_stor_of_lt {a : Operand} {s : State} (ha : cellIndex a < s.len) (hc : cellIndex a < s.par.cap) :
    exec (.stor a) s = .next (advancePc (withData (cellIndex a) s.acc s)) :=
  (checkAddr_of_lt ha _).trans (storeAndAdvance_of_lt hc s.acc)

/-- After the next state of a STOR, a LOAD of the same index returns the stored value (R81). -/
theorem exec_load_of_stored {a : Operand} {s : State} (ha : cellIndex a < s.len) (hc : cellIndex a < s.par.cap)
    (v : Value) : exec (.load a) (advancePc (withData (cellIndex a) v s)) =
      .next (advancePc (setAcc v (advancePc (withData (cellIndex a) v s)))) := by
  have hread : dataCell (cellIndex a) (advancePc (withData (cellIndex a) v s)) = v := dataCell_withData_self _ v s
  rw [exec_load_of_lt (s := advancePc (withData (cellIndex a) v s)) ha hc, hread]

/-- The value of a SET is one of the 65536 values of its operand (R82). -/
theorem zextValue_toInt_bounds (k : Operand) : 0 ≤ (zextValue k).toInt ∧ (zextValue k).toInt ≤ 65535 := by
  have := k.isLt
  rw [zextValue_toInt]
  omega

/-! ## The obligations -/

/-- Settles O43: the check and the store are STOR's two ends; the store is seen at its own cell only, and by the LOAD. -/
theorem storWritesTheAccumulator : Obligations.StorWritesTheAccumulator := by
  intro a s
  refine ⟨rfl, fun ha => exec_of_operand_ge (.inl rfl) ha, fun ha hc => ?_⟩
  exact ⟨_, exec_stor_of_lt ha hc, rfl, dataCell_withData_self _ s.acc s,
    fun b hb => dataCell_withData_other hb s.acc s, exec_load_of_stored ha hc s.acc⟩

/-- Settles O44: the value is the operand's zero extension, which keeps its magnitude. -/
theorem setLoadsTheZeroExtendedOperand : Obligations.SetLoadsTheZeroExtendedOperand := by
  intro k s
  obtain ⟨hnonneg, hle⟩ := zextValue_toInt_bounds k
  exact ⟨rfl, rfl, zextValue k, zextValue_toInt k, hnonneg, hle, accAndAdvance_eq (zextValue k) s⟩

/-- Settles O42: LOAD faults at or beyond LEN, and copies an existing cell. -/
theorem loadCopiesTheCell : Obligations.LoadCopiesTheCell := fun _ _ =>
  ⟨rfl, fun ha => exec_of_operand_ge (.inl rfl) ha, fun ha hc => exec_load_of_lt ha hc⟩

end Sys2Proof.Machine
end

section
/-! # Arithmetic: proofs of the statements about spec/44_arithmetic.md

The five instructions share one account: with an existing cell and no zero divisor, each commits its `exactResult`
(`exec_eq_commitResult`), MOD too, since a remainder always fits. What is left of each statement is the range of the
exact result: which results of DIV and MOD fit (R89, R91). -/

namespace Sys2Proof.Machine

/-! ## The range of the exact results -/

theorem not_fits_iff {r : Int} : ¬ fits r ↔ r < -2147483648 ∨ 2147483647 < r := by
  simp only [fits, minValue, maxValue]
  omega

/-- The one quotient of two values that does not fit is MIN / -1 (R89). -/
theorem not_fits_tdiv_iff {n d : Int} (hn : fits n) (hd : d ≠ 0) : ¬ fits (tdiv n d) ↔ n = minValue ∧ d = -1 := by
  constructor
  · exact fun h => by_contra fun hne => h (tdiv_fits hn hd hne)
  · rintro ⟨rfl, rfl⟩
    decide

/-! ## The signs of quotient and remainder -/

theorem tdiv_nonneg_of_mul_pos {n d : Int} (h : 0 < n * d) : 0 ≤ tdiv n d := by
  obtain ⟨hn, hd⟩ | ⟨hn, hd⟩ := mul_pos_iff.1 h
  · exact Int.tdiv_nonneg hn.le hd.le
  · exact Int.tdiv_nonneg_of_nonpos_of_nonpos hn.le hd.le

theorem tdiv_nonpos_of_mul_neg {n d : Int} (h : n * d < 0) : tdiv n d ≤ 0 := by
  obtain ⟨hn, hd⟩ | ⟨hn, hd⟩ := mul_neg_iff.1 h
  · exact Int.tdiv_nonpos_of_nonneg_of_nonpos hn.le hd.le
  · rw [tdiv, ← neg_neg n, Int.neg_tdiv, neg_nonpos]
    exact Int.tdiv_nonneg (neg_nonneg.2 hn.le) hd.le

/-- A remainder that is not 0 has the sign of the dividend (R86). -/
theorem tmod_sign (n d : Int) : tmod n d = 0 ∨ (0 < n ∧ 0 < tmod n d) ∨ (n < 0 ∧ tmod n d < 0) := by
  rw [tmod_eq]
  obtain hn | rfl | hn := lt_trichotomy n 0
  · have hneg : 0 ≤ Int.tmod (-n) d := Int.tmod_nonneg d (by omega)
    rw [Int.neg_tmod] at hneg
    omega
  · exact .inl (Int.zero_tmod d)
  · have hpos := Int.tmod_nonneg d hn.le
    omega

/-! ## What the five instructions do -/

section Exact
variable {i : Instr} {s t : State} {r : Int}

theorem operandClass_of_exactResult {n d : Int} (hr : exactResult i n d = some r) : operandClass i = .data := by
  cases i with
  | add | sub | div | mult | mod => rfl
  | _ => cases hr

/-- A zero divisor faults before anything is computed, whatever the accumulator holds (R89, R91). -/
theorem exec_of_divisor_zero (hi : divides i = true) (ha : cellIndex (operandOf i) < s.len)
    (hc : cellIndex (operandOf i) < s.par.cap) (hz : isZero (dataCell (cellIndex (operandOf i)) s)) :
    exec i s = .next (raiseFault .divisionByZero s) := by
  cases i with
  | div a | mod a => exact (withCell_of_lt ha hc _).trans (if_pos hz)
  | _ => cases hi

variable (hr : exactResult i s.acc.toInt (dataCell (cellIndex (operandOf i)) s).toInt = some r)
include hr

section Cell
variable (ha : cellIndex (operandOf i) < s.len) (hc : cellIndex (operandOf i) < s.par.cap)
  (hd : divides i = false ∨ ¬ isZero (dataCell (cellIndex (operandOf i)) s))
include ha hc hd

/-- With an existing cell and no zero divisor every arithmetic instruction commits its exact result (R85). -/
theorem exec_eq_commitResult : exec i s = commitResult r s := by
  cases i with
  | add a | sub a | mult a =>
    cases hr
    exact withCell_of_lt ha hc _
  | div a =>
    cases hr
    exact (withCell_of_lt ha hc _).trans (if_neg (hd.resolve_left Bool.noConfusion))
  | mod a =>
    cases hr
    have hd := hd.resolve_left Bool.noConfusion
    have hfits := tmod_fits (n := s.acc.toInt) (value_fits _) hd
    rw [← tmod_eq, commitResult_of_fits hfits]
    exact (withCell_of_lt ha hc _).trans (if_neg hd)
  | _ => cases hr

theorem exec_of_exactResult_fits (hfits : fits r) :
    ∃ v : Value, v.toInt = r ∧ exec i s = .next (advancePc (setAcc v s)) :=
  ⟨_, toInt_ofInt_of_fits hfits, (exec_eq_commitResult hr ha hc hd).trans (commitResult_of_fits hfits s)⟩

theorem exec_of_exactResult_not_fits (hfits : ¬ fits r) : exec i s = .next (raiseFault .arithmeticOverflow s) :=
  (exec_eq_commitResult hr ha hc hd).trans (commitResult_of_not_fits hfits s)

end Cell

/-- An arithmetic instruction takes a fault other than ArithmeticOverflow, or commits its exact result (R85). -/
theorem exec_arithmetic_next (h : exec i s = .next t) :
    (∃ x, x ≠ .arithmeticOverflow ∧ t = raiseFault x s) ∨
    ((divides i = false ∨ ¬ isZero (dataCell (cellIndex (operandOf i)) s)) ∧ commitResult r s = .next t) := by
  have hi := operandClass_of_exactResult hr
  rcases Nat.lt_or_ge (cellIndex (operandOf i)) s.len with ha | ha
  · rcases Nat.lt_or_ge (cellIndex (operandOf i)) s.par.cap with hc | hc
    · by_cases hz : divides i = true ∧ isZero (dataCell (cellIndex (operandOf i)) s)
      · obtain ⟨hdiv, hzero⟩ := hz
        cases (exec_of_divisor_zero hdiv ha hc hzero).symm.trans h
        exact .inl ⟨_, by decide, rfl⟩
      · have hd := (not_and_or.1 hz).imp_left Bool.eq_false_iff.2
        exact .inr ⟨hd, (exec_eq_commitResult hr ha hc hd).symm.trans h⟩
    · have hread : ∀ a, i ≠ .read a := by rintro a rfl; cases hr
      cases (accessBeyondCapacityStops i s hi ha hc (.inl hread)).symm.trans h
  · cases (exec_of_operand_ge (.inl hi) ha).symm.trans h
    exact .inl ⟨_, by decide, rfl⟩

end Exact

/-! ## The obligations -/

/-- Settles O45: ADD commits its exact sum. -/
theorem addGivesTheExactSum : Obligations.AddGivesTheExactSum := fun a _ =>
  ⟨rfl, fun ha => exec_of_operand_ge (.inl rfl) ha,
    fun ha hc hmin hmax => exec_of_exactResult_fits (i := .add a) rfl ha hc (.inl rfl) ⟨hmin, hmax⟩,
    fun ha hc hout => exec_of_exactResult_not_fits (i := .add a) rfl ha hc (.inl rfl) (not_fits_iff.2 hout)⟩

/-- Settles O46: SUB commits its exact difference. -/
theorem subGivesTheExactDifference : Obligations.SubGivesTheExactDifference := fun a _ =>
  ⟨rfl, fun ha => exec_of_operand_ge (.inl rfl) ha,
    fun ha hc hmin hmax => exec_of_exactResult_fits (i := .sub a) rfl ha hc (.inl rfl) ⟨hmin, hmax⟩,
    fun ha hc hout => exec_of_exactResult_not_fits (i := .sub a) rfl ha hc (.inl rfl) (not_fits_iff.2 hout)⟩

/-- Settles O47: MULT commits its exact product. -/
theorem multGivesTheExactProduct : Obligations.MultGivesTheExactProduct := fun a _ =>
  ⟨rfl, fun ha => exec_of_operand_ge (.inl rfl) ha,
    fun ha hc hmin hmax => exec_of_exactResult_fits (i := .mult a) rfl ha hc (.inl rfl) ⟨hmin, hmax⟩,
    fun ha hc hout => exec_of_exactResult_not_fits (i := .mult a) rfl ha hc (.inl rfl) (not_fits_iff.2 hout)⟩

/-- Settles O48: a zero divisor faults first; then the quotient fits but for MIN / -1. -/
theorem divTruncatesTowardZero : Obligations.DivTruncatesTowardZero := by
  intro a s
  refine ⟨rfl, fun ha => exec_of_operand_ge (.inl rfl) ha,
    fun ha hc hz => exec_of_divisor_zero (i := .div a) rfl ha hc hz, fun ha hc hd hne => ?_, fun ha hc hn hd => ?_⟩
  · exact exec_of_exactResult_fits (i := .div a) rfl ha hc (.inr hd) (tdiv_fits (value_fits _) hd hne)
  · have hnz : (dataCell a.toNat s).toInt ≠ 0 := by omega
    exact exec_of_exactResult_not_fits (i := .div a) rfl ha hc (.inr hnz)
      ((not_fits_tdiv_iff (value_fits _) hnz).2 ⟨hn, hd⟩)

/-- Settles O49: a zero divisor faults first; then the remainder fits. -/
theorem modGivesTheTruncatedRemainder : Obligations.ModGivesTheTruncatedRemainder := by
  intro a s
  refine ⟨rfl, fun ha => exec_of_operand_ge (.inl rfl) ha,
    fun ha hc hz => exec_of_divisor_zero (i := .mod a) rfl ha hc hz, fun ha hc hd => ?_⟩
  exact exec_of_exactResult_fits (i := .mod a) rfl ha hc (.inr hd) (tmod_eq _ _ ▸ tmod_fits (value_fits _) hd)

/-- Settles O50: magnitude and sign of each result, and the table by evaluation. -/
theorem divisionTruncatesTowardZero : Obligations.DivisionTruncatesTowardZero :=
  ⟨fun n d hd => ⟨Int.natAbs_tdiv n d, tdiv_nonneg_of_mul_pos, tdiv_nonpos_of_mul_neg, rfl, natAbs_tmod_lt n hd,
    tmod_sign n d⟩, by decide⟩

/-- Settles O51: a fault keeps the accumulator, a commit is exact, and the range of the result says who can overflow. -/
theorem arithmeticNeverWraps : Obligations.ArithmeticNeverWraps := by
  intro i s t r hrun hnone hr h
  obtain ⟨x, hx, rfl⟩ | ⟨hd, hcommit⟩ := exec_arithmetic_next hr h
  · exact ⟨.inr ⟨rfl, rfl⟩, fun ho => absurd ho hx, fun _ ho => absurd ho hx, fun _ => hx⟩
  · obtain ⟨hfits, rfl⟩ | ⟨hfits, rfl⟩ := commitResult_next hcommit
    · refine ⟨.inr ⟨rfl, rfl⟩, fun _ => not_fits_iff.1 hfits, ?_, ?_⟩
      · rintro ⟨a, rfl⟩ -
        cases hr
        exact (not_fits_tdiv_iff (value_fits _) (hd.resolve_left Bool.noConfusion)).1 hfits
      · rintro ⟨a, rfl⟩
        cases hr
        exact absurd (tmod_eq _ _ ▸ tmod_fits (value_fits _) (hd.resolve_left Bool.noConfusion)) hfits
    · have hno : s.fault ≠ .arithmeticOverflow := by simp [hnone]
      obtain ⟨hmin, hmax⟩ := hfits
      exact ⟨.inl ⟨hrun, toInt_ofInt_of_fits ⟨hmin, hmax⟩, hmin, hmax⟩, fun ho => absurd ho hno,
        fun _ ho => absurd ho hno, fun _ => hno⟩

end Sys2Proof.Machine
end

section
/-! # Control: proofs of the statements about spec/45_control.md

At or beyond LEN the three branches fault by `exec_of_operand_ge`; below it each has one next state where its condition
holds and one where it does not. The only instruction that enters Halted is HALT, so the only such step is a HALT's. -/

namespace Sys2Proof.Machine

section Control
variable {s t : State}

/-! ## The two ends of a branch below LEN -/

/-- Where its condition holds a branch puts its operand into the PC and changes nothing else (R95). -/
theorem branchIf_of_taken {taken : Prop} [Decidable taken] {a : Operand} (ha : cellIndex a < s.len) (hb : taken) :
    ∃ p : ProgramCounter, p.toNat = a.toNat ∧ branchIf taken a s = .next { s with pc := p } :=
  ⟨targetPc a, targetPc_toNat a, by rw [branchIf_of_lt ha, if_pos hb]; rfl⟩

/-- Where its condition fails a branch advances the PC (R95). -/
theorem branchIf_of_not_taken {taken : Prop} [Decidable taken] {a : Operand} (ha : cellIndex a < s.len)
    (hb : ¬ taken) : branchIf taken a s = .next (advancePc s) := by rw [branchIf_of_lt ha, if_neg hb]

/-! ## The two tests of the accumulator -/

/-- A negative value is one whose bit XLEN-1 is 1 (R97). -/
theorem isNegative_iff_signBit (v : Value) : isNegative v ↔ v.getLsbD 31 = true := by
  rw [← decide_eq_true_iff (p := isNegative v), ← BitVec.msb_eq_toInt, BitVec.msb_eq_getLsbD_last]

/-- Zero has one representation (R98). -/
theorem isZero_iff (v : Value) : isZero v ↔ v = 0#32 := by
  rw [← BitVec.toInt_inj, BitVec.toInt_zero]

/-! ## Entering Halted -/

/-- An instruction that enters Halted is a HALT: the others keep STATUS or take a fault (R99). -/
theorem Effect.of_halted {i : Instr} (h : Effect s i t) (hs : s.status ≠ .halted) (ht : t.status = .halted) :
    ∃ x, i = .halt x ∧ t = advancePc (enterHalted s) := by
  cases h with
  | halt x => exact ⟨x, rfl, rfl⟩
  | fault => cases ht
  | _ => exact absurd ht hs

/-- A step that enters Halted was enabled and ran a HALT fetched below LEN (R72, R99). -/
theorem step_of_halted (h : step s = .next t) (hs : s.status ≠ .halted) (ht : t.status = .halted) :
    stepEnabled s ∧ s.pc.toNat < s.len ∧
    ∃ x, decode (instrCell s.pc.toNat s) = .instr (.halt x) ∧ t = advancePc (enterHalted s) := by
  obtain ⟨-, rfl⟩ | ⟨-, r, -, -, rfl⟩ | ⟨hen, i, hf, he⟩ := step_next h
  · exact absurd ht hs
  · cases ht
  · obtain ⟨x, rfl, rfl⟩ := he.of_halted hs ht
    obtain ⟨-, hlen, hdec⟩ := fetchDecode_inr.1 hf
    exact ⟨hen, hlen, x, hdec, rfl⟩

end Control

/-! ## The obligations -/

/-- Settles O32: the step into Halted is a HALT's, enabled and below LEN. -/
theorem onlyHaltEndsARunWell : Obligations.OnlyHaltEndsARunWell := by
  intro s t hs h ht
  obtain ⟨⟨hdone, hrun⟩, hlen, x, hdec, rfl⟩ := step_of_halted h hs ht
  exact ⟨hdone, hrun, hlen, x, hdec, rfl⟩

/-- Settles O53: the check, the branch taken, the branch not taken, and the sign bit. -/
theorem brngJumpsIfNegative : Obligations.BrngJumpsIfNegative := fun _ s =>
  ⟨rfl, fun ha => exec_of_operand_ge (.inr rfl) ha, fun ha hneg => branchIf_of_taken ha hneg,
    fun ha hnonneg => branchIf_of_not_taken ha (Int.not_lt.2 hnonneg), isNegative_iff_signBit s.acc⟩

/-- Settles O54: the check, the branch taken, the branch not taken, and the one zero pattern. -/
theorem brzrJumpsIfZero : Obligations.BrzrJumpsIfZero := fun _ s =>
  ⟨rfl, fun ha => exec_of_operand_ge (.inr rfl) ha, fun ha hzero => branchIf_of_taken ha hzero,
    fun ha hne => branchIf_of_not_taken ha hne, isZero_iff s.acc⟩

/-- Settles O55: HALT has one next state, in which no step is enabled, and no other instruction enters Halted. -/
theorem haltHalts : Obligations.HaltHalts := by
  intro x s
  refine ⟨rfl, rfl, fun t h => ?_, fun t hs h ht => ?_⟩
  · cases h
    have hdisabled : ¬ stepEnabled (advancePc (enterHalted s)) := fun ⟨_, hrun⟩ => by cases hrun
    exact ⟨hdisabled, fun k u hu => by cases (runSteps_of_disabled hdisabled k).symm.trans hu; rfl⟩
  · obtain ⟨-, -, y, hdec, -⟩ := step_of_halted h hs ht
    exact ⟨y, hdec⟩

/-- Settles O52: the check, and the branch always taken. -/
theorem branJumps : Obligations.BranJumps := fun _ _ =>
  ⟨rfl, fun ha => exec_of_operand_ge (.inr rfl) ha, fun ha => branchIf_of_taken ha trivial⟩

end Sys2Proof.Machine
end

section
/-! # Exceptions: proofs of the statements about spec/60_exceptions.md

`Raises s r t` says that a step from `s` to `t` raised the reason `r` and no other. One lemma per level gives the
reason: an instruction raises its `firstOperandFault`, an enabled step its `firstFault`. The order of R109 and the
absence of IllegalOpcode are read off these two. The host's append commutes with each shared shape of the instruction rules, and
so with every instruction that does not wait. -/

namespace Sys2Proof.Machine

/-- The reason raised on the way from `s` to `t`, None where no fault is taken (R109): a step with no fault leaves FAULT
and does not enter Faulted, a step with one does nothing else. -/
inductive Raises (s : State) : FaultReason → State → Prop
  /-- No fault is taken. -/
  | quiet {t : State} (hfault : t.fault = s.fault) (hstatus : t.status = s.status ∨ t.status = .halted) :
      Raises s .none t
  /-- The fault `r` is taken (R70). -/
  | fault (r : FaultReason) (hr : r ≠ .none) : Raises s r (raiseFault r s)

section Order
variable {s t : State} {i : Instr} {r : FaultReason}

/-- From a running state without a fault, FAULT ends as the reason raised, and STATUS is Faulted if there is one. -/
theorem Raises.fault_and_status (h : Raises s r t) (hrun : s.status = .running) (hnone : s.fault = .none) :
    t.fault = r ∧ (t.status = .faulted ↔ r ≠ .none) := by
  cases h with
  | quiet hfault hstatus => exact ⟨hfault.trans hnone, by rcases hstatus with hs | hs <;> simp [hs, hrun]⟩
  | fault r hr => exact ⟨rfl, iff_of_true rfl hr⟩

/-- FAULT comes to hold only the reason raised. -/
theorem Raises.fault_eq_or (h : Raises s r t) : t.fault = s.fault ∨ t.fault = r := by
  cases h with
  | quiet hfault => exact .inl hfault
  | fault => exact .inr rfl

/-! ## The order of the operand faults (R109, items 4 to 6) -/

theorem isChecked_operandClass_iff :
    isChecked (operandClass i) = true ↔ operandClass i = .data ∨ operandClass i = .branch := by
  cases operandClass i <;> simp [isChecked]

theorem exactResult_isSome_of_divides (hi : divides i = true) (n d : Int) : (exactResult i n d).isSome = true := by
  cases i with
  | div | mod => rfl
  | _ => cases hi

theorem firstOperandFault_of_ge (hi : isChecked (operandClass i) = true) (hle : s.len ≤ cellIndex (operandOf i)) :
    firstOperandFault i s = .addressOutOfRange := if_pos ⟨hi, hle⟩

section Below
variable (hok : ¬ (isChecked (operandClass i) = true ∧ s.len ≤ cellIndex (operandOf i)))
include hok

theorem firstOperandFault_of_divisor_zero (hdiv : divides i = true)
    (hzero : isZero (dataCell (cellIndex (operandOf i)) s)) : firstOperandFault i s = .divisionByZero :=
  (if_neg hok).trans (if_pos ⟨hdiv, hzero⟩)

theorem firstOperandFault_of_result {n : Int}
    (hnz : ¬ (divides i = true ∧ isZero (dataCell (cellIndex (operandOf i)) s)))
    (hn : exactResult i s.acc.toInt (dataCell (cellIndex (operandOf i)) s).toInt = some n) :
    firstOperandFault i s = if fits n then .none else .arithmeticOverflow := by
  refine (if_neg hok).trans ((if_neg hnz).trans ?_)
  rw [← cellIndex, hn]

theorem firstOperandFault_of_no_result
    (hn : exactResult i s.acc.toInt (dataCell (cellIndex (operandOf i)) s).toInt = none) :
    firstOperandFault i s = .none := by
  have hnz : ¬ (divides i = true ∧ isZero (dataCell (cellIndex (operandOf i)) s)) := fun ⟨hi, _⟩ => by
    have hsome := exactResult_isSome_of_divides hi s.acc.toInt (dataCell (cellIndex (operandOf i)) s).toInt
    rw [hn] at hsome
    cases hsome
  refine (if_neg hok).trans ((if_neg hnz).trans ?_)
  rw [← cellIndex, hn]

end Below

/-- No operand is the cause of an IllegalOpcode (R107). -/
theorem firstOperandFault_ne_illegalOpcode (i : Instr) (s : State) : firstOperandFault i s ≠ .illegalOpcode := by
  by_cases hge : isChecked (operandClass i) = true ∧ s.len ≤ cellIndex (operandOf i)
  · obtain ⟨hi, hle⟩ := hge
    simp [firstOperandFault_of_ge hi hle]
  · cases hn : exactResult i s.acc.toInt (dataCell (cellIndex (operandOf i)) s).toInt with
    | none => simp [firstOperandFault_of_no_result hge hn]
    | some n =>
      by_cases hz : divides i = true ∧ isZero (dataCell (cellIndex (operandOf i)) s)
      · obtain ⟨hdiv, hzero⟩ := hz
        simp [firstOperandFault_of_divisor_zero hge hdiv hzero]
      · rw [firstOperandFault_of_result hge hz hn]
        split <;> decide

/-! ## What an instruction raises -/

theorem commitResult_raises {n : Int} (h : commitResult n s = .next t) :
    Raises s (if fits n then .none else .arithmeticOverflow) t := by
  obtain ⟨hfits, rfl⟩ | ⟨hfits, rfl⟩ := commitResult_next h
  · rw [if_neg hfits]
    exact .fault _ (by decide)
  · rw [if_pos hfits]
    exact .quiet rfl (.inl rfl)

/-- An instruction other than the arithmetic ones raises nothing once its bound check, if it has one, is passed. -/
theorem exec_raises_none_of_no_result {n d : Int} (hn : exactResult i n d = none)
    (ha : isChecked (operandClass i) = true → cellIndex (operandOf i) < s.len) (h : exec i s = .next t) :
    Raises s .none t := by
  cases i with
  | read a =>
    cases hin : s.input with
    | nil => cases (execRead_of_nil (ha rfl) hin).symm.trans h; exact .quiet rfl (.inl rfl)
    | cons v rest =>
      obtain ⟨-, rfl⟩ := storeAndAdvance_next ((execRead_of_cons (ha rfl) hin).symm.trans h)
      exact .quiet rfl (.inl rfl)
  | stor a =>
    obtain ⟨-, rfl⟩ := storeAndAdvance_next ((checkAddr_of_lt (ha rfl) _).symm.trans h)
    exact .quiet rfl (.inl rfl)
  | writ a | prnt a | load a => cases withCell_next_of_lt (ha rfl) h; exact .quiet rfl (.inl rfl)
  | bran a | brng a | brzr a =>
    obtain ⟨hge, -⟩ | ⟨-, -, rfl⟩ | ⟨-, -, rfl⟩ := branchIf_next h
    · exact absurd (ha rfl) (Nat.not_lt.2 hge)
    · exact .quiet rfl (.inl rfl)
    · exact .quiet rfl (.inl rfl)
  | set k => cases h; exact .quiet rfl (.inl rfl)
  | halt x => cases h; exact .quiet rfl (.inr rfl)
  | add a | sub a | div a | mult a | mod a => cases hn

/-- An arithmetic instruction whose operand is below LEN answers a next state only at a cell that exists. -/
theorem lt_cap_of_exec_arithmetic {n d r : Int} (hr : exactResult i n d = some r)
    (ha : cellIndex (operandOf i) < s.len) (h : exec i s = .next t) : cellIndex (operandOf i) < s.par.cap := by
  by_contra hc
  have hread : ∀ a, i ≠ .read a := by rintro a rfl; cases hr
  cases (accessBeyondCapacityStops i s (operandClass_of_exactResult hr) ha (Nat.not_lt.1 hc) (.inl hread)).symm.trans h

/-- An instruction raises the first of the operand faults whose condition holds, and no other (R109). -/
theorem exec_raises_firstOperandFault (h : exec i s = .next t) : Raises s (firstOperandFault i s) t := by
  by_cases hge : isChecked (operandClass i) = true ∧ s.len ≤ cellIndex (operandOf i)
  · obtain ⟨hi, hle⟩ := hge
    cases (exec_of_operand_ge (isChecked_operandClass_iff.1 hi) hle).symm.trans h
    rw [firstOperandFault_of_ge hi hle]
    exact .fault _ (by decide)
  · have hlt : isChecked (operandClass i) = true → cellIndex (operandOf i) < s.len := fun hi =>
      Nat.not_le.1 fun hle => hge ⟨hi, hle⟩
    cases hn : exactResult i s.acc.toInt (dataCell (cellIndex (operandOf i)) s).toInt with
    | none =>
      rw [firstOperandFault_of_no_result hge hn]
      exact exec_raises_none_of_no_result hn hlt h
    | some n =>
      have ha := hlt (isChecked_operandClass_iff.2 (.inl (operandClass_of_exactResult hn)))
      have hc := lt_cap_of_exec_arithmetic hn ha h
      by_cases hz : divides i = true ∧ isZero (dataCell (cellIndex (operandOf i)) s)
      · obtain ⟨hdiv, hzero⟩ := hz
        cases (exec_of_divisor_zero hdiv ha hc hzero).symm.trans h
        rw [firstOperandFault_of_divisor_zero hge hdiv hzero]
        exact .fault _ (by decide)
      · have hd := (not_and_or.1 hz).imp_left Bool.eq_false_iff.2
        rw [firstOperandFault_of_result hge hz hn]
        exact commitResult_raises ((exec_eq_commitResult hn ha hc hd).symm.trans h)

/-! ## What a step raises -/

/-- The order of R109 is the fetch's reason, or the operand fault of the instruction fetched. -/
theorem firstFault_eq (s : State) : firstFault s = (fetchDecode s).elim id fun i => firstOperandFault i s := by
  rw [firstFault, fetchDecode, ← fetchWord]
  split
  · rfl
  · split
    · rfl
    · cases decode (fetchWord s) <;> rfl

/-- An enabled step raises the first fault of R109 whose condition holds, and no other. -/
theorem step_raises_firstFault (he : stepEnabled s) (h : step s = .next t) : Raises s (firstFault s) t := by
  rw [firstFault_eq]
  cases hf : fetchDecode s with
  | inl r =>
    cases (step_of_fault he hf).symm.trans h
    exact .fault r (fetchDecode_inl_ne_none hf)
  | inr i => exact exec_raises_firstOperandFault ((step_of_instr he hf).symm.trans h)

/-! ## Legal programs -/

/-- A step keeps a legal program legal, since it writes neither LEN nor IMEM (R37). -/
theorem ProgramLegal.after_step (hs : ProgramLegal s) (h : step s = .next t) : ProgramLegal t := by
  obtain ⟨-, hlen, himem, -⟩ := step_frame h
  rw [ProgramLegal, hlen, himem]
  exact hs

/-- A legal program's fetch below LEN decodes to an instruction, so IllegalOpcode is not the first fault (R107). -/
theorem ProgramLegal.firstFault_ne_illegalOpcode (hs : ProgramLegal s) : firstFault s ≠ .illegalOpcode := by
  rw [firstFault_eq]
  cases hf : fetchDecode s with
  | inr i => exact firstOperandFault_ne_illegalOpcode i s
  | inl r =>
    rintro rfl
    obtain ⟨-, hr⟩ | ⟨-, -, hr⟩ | ⟨-, hpc, -, hillegal⟩ := fetchDecode_inl.1 hf
    · cases hr
    · cases hr
    · obtain ⟨w, hw, hlegal⟩ := hs _ hpc
      rw [fetchWord, instrCell, hw, Option.getD_some, exists_illegal_iff] at hillegal
      exact hillegal ((legalWord_iff w).1 hlegal)

/-- From a legal program a step leaves FAULT or raises another reason than IllegalOpcode (R107). -/
theorem ProgramLegal.step_fault (hs : ProgramLegal s) (h : step s = .next t) :
    t.fault = s.fault ∨ t.fault ≠ .illegalOpcode := by
  by_cases he : stepEnabled s
  · refine (step_raises_firstFault he h).fault_eq_or.imp_right fun hf => ?_
    rw [hf]
    exact hs.firstFault_ne_illegalOpcode
  · cases (step_of_disabled he).symm.trans h
    exact .inl rfl

/-- After a load that ends Done the program is legal (R64). -/
theorem programLegal_load {lines : List ObjectLine} (hi : s.lstatus = .idle) (hd : (load lines s).lstatus = .done) :
    ProgramLegal (load lines s) := by
  intro k hk
  obtain ⟨l, -, w, hw, hcell⟩ := exists_line_of_load_done hi hd hk
  obtain ⟨hcode, -⟩ := fields_of_parseLine hw
  exact ⟨w, hcell, (legalWord_iff w).2 hcode⟩

/-! ## Runs of a loaded program -/

/-- What holds along the run of a loaded program: the invariant, a legal program, and no IllegalOpcode. -/
structure LoadedInv (s : State) : Prop where
  inv : Inv s
  legal : ProgramLegal s
  fault_ne : s.fault ≠ .illegalOpcode

theorem LoadedInv.after_step (hs : LoadedInv s) (h : step s = .next t) : LoadedInv t where
  inv := hs.inv.step h
  legal := hs.legal.after_step h
  fault_ne := (hs.legal.step_fault h).elim (fun hf => hf ▸ hs.fault_ne) id

theorem loadedInv_startRun {p : Params} {queued : List Value} {lines : List ObjectLine} (hp : p.Legal)
    (hd : (startRun p queued lines).lstatus = .done) : LoadedInv (startRun p queued lines) where
  inv := (inv_created hp queued).load rfl lines
  legal := programLegal_load rfl hd
  fault_ne := by rw [startRun, load_frame]; exact (by decide : FaultReason.none ≠ .illegalOpcode)

/-- Along every run from a state that meets it, the model answers a next state that meets it too. -/
theorem LoadedInv.after_runSteps (hs : LoadedInv s) (k : Nat) : ∃ t, runSteps k s = .next t ∧ LoadedInv t := by
  induction k generalizing s with
  | zero => exact ⟨s, rfl, hs⟩
  | succ k ih =>
    obtain ⟨u, hu⟩ := step_total hs.inv.len_le
    rw [runSteps_succ hu]
    exact ih (hs.after_step hu)

end Order

/-! ## The arrival of a value

Each shape of the instruction rules answers, after the host's append, its own next state with the value appended. -/

section Arrival
variable {s t : State} {i : Instr} (v : Value)

theorem checkAddr_hostAppend {a : Operand} {k k' : Answer}
    (hk : cellIndex a < s.len → k = .next t → k' = .next (hostAppend v t)) (h : checkAddr a s k = .next t) :
    checkAddr a (hostAppend v s) k' = .next (hostAppend v t) := by
  obtain ⟨ha, rfl⟩ | ⟨ha, h⟩ := checkAddr_next h
  · exact checkAddr_of_ge (s := hostAppend v s) ha k'
  · exact (checkAddr_of_lt (s := hostAppend v s) ha k').trans (hk ha h)

theorem withCell_hostAppend {a : Operand} {k k' : Value → Answer}
    (hk : ∀ d, k d = .next t → k' d = .next (hostAppend v t)) (h : withCell a s k = .next t) :
    withCell a (hostAppend v s) k' = .next (hostAppend v t) := by
  obtain ⟨ha, rfl⟩ | ⟨ha, hc, h⟩ := withCell_next h
  · exact withCell_of_ge (s := hostAppend v s) ha k'
  · exact (withCell_of_lt (s := hostAppend v s) ha hc k').trans (hk _ h)

theorem storeAndAdvance_hostAppend {a : Operand} {d : Value} (h : storeAndAdvance a d s = .next t) :
    storeAndAdvance a d (hostAppend v s) = .next (hostAppend v t) := by
  obtain ⟨hc, rfl⟩ := storeAndAdvance_next h
  exact storeAndAdvance_of_lt (s := hostAppend v s) hc d

theorem commitResult_hostAppend {n : Int} (h : commitResult n s = .next t) :
    commitResult n (hostAppend v s) = .next (hostAppend v t) := by
  obtain ⟨hfits, rfl⟩ | ⟨hfits, rfl⟩ := commitResult_next h
  · exact commitResult_of_not_fits hfits (hostAppend v s)
  · exact commitResult_of_fits hfits (hostAppend v s)

theorem branchIf_hostAppend {taken : Prop} [Decidable taken] {a : Operand} (h : branchIf taken a s = .next t) :
    branchIf taken a (hostAppend v s) = .next (hostAppend v t) := by
  refine checkAddr_hostAppend v (fun _ hk => ?_) h
  cases hk
  split <;> rfl

/-- A READ with a value to take takes the same value after another is appended behind it (R19). -/
theorem execRead_hostAppend {a : Operand} (hin : cellIndex a < s.len → s.input ≠ []) (h : execRead a s = .next t) :
    execRead a (hostAppend v s) = .next (hostAppend v t) := by
  refine checkAddr_hostAppend v (fun ha hk => ?_) h
  obtain ⟨w, rest, hrest⟩ := List.exists_cons_of_ne_nil (hin ha)
  have hrest' : (hostAppend v s).input = w :: (rest ++ [v]) := by simp [hrest]
  rw [takeInput_of_cons hrest] at hk
  rw [takeInput_of_cons hrest']
  exact storeAndAdvance_hostAppend v hk

/-- Every instruction that does not wait for input commutes with the host's append (R112). -/
theorem exec_hostAppend (hin : ∀ a, i = .read a → cellIndex a < s.len → s.input ≠ []) (h : exec i s = .next t) :
    exec i (hostAppend v s) = .next (hostAppend v t) := by
  cases i with
  | read a => exact execRead_hostAppend v (hin a rfl) h
  | stor a => exact checkAddr_hostAppend v (fun _ hk => storeAndAdvance_hostAppend v hk) h
  | writ a | prnt a | load a => exact withCell_hostAppend v (fun d hk => by cases hk; rfl) h
  | add a | sub a | mult a => exact withCell_hostAppend v (fun d hk => commitResult_hostAppend v hk) h
  | div a =>
    refine withCell_hostAppend v (fun d hk => ?_) h
    by_cases hz : isZero d
    · rw [if_pos hz] at hk ⊢
      cases hk
      rfl
    · rw [if_neg hz] at hk ⊢
      exact commitResult_hostAppend v hk
  | mod a =>
    refine withCell_hostAppend v (fun d hk => ?_) h
    by_cases hz : isZero d
    · rw [if_pos hz] at hk ⊢
      cases hk
      rfl
    · rw [if_neg hz] at hk ⊢
      cases hk
      rfl
  | bran a | brng a | brzr a => exact branchIf_hostAppend v h
  | set k | halt x => cases h; rfl

/-- Every step but a READ's wait commutes with the host's append (R112). -/
theorem step_hostAppend (hs : ¬ Stalled s) (h : step s = .next t) :
    step (hostAppend v s) = .next (hostAppend v t) := by
  by_cases he : stepEnabled s
  · cases hf : fetchDecode s with
    | inl r =>
      cases (step_of_fault he hf).symm.trans h
      exact step_of_fault (s := hostAppend v s) he hf
    | inr i =>
      have hin : ∀ a, i = .read a → cellIndex a < s.len → s.input ≠ [] := by
        rintro a rfl ha hnil
        exact hs ⟨he, hnil, a, hf, ha⟩
      exact (step_of_instr (s := hostAppend v s) he hf).trans
        (exec_hostAppend v hin ((step_of_instr he hf).symm.trans h))
  · cases (step_of_disabled he).symm.trans h
    exact step_of_disabled (s := hostAppend v s) he

end Arrival

/-! ## The obligations -/

/-- Settles O18: an enabled step raises its `firstFault`, and it answers a next state. -/
theorem firstFaultInPriorityOrderIsRaised : Obligations.FirstFaultInPriorityOrderIsRaised := by
  intro s hdone hrun hnone hlen
  obtain ⟨t, ht⟩ := step_total hlen
  exact ⟨t, ht, (step_raises_firstFault ⟨hdone, hrun⟩ ht).fault_and_status hrun hnone⟩

/-- Settles O28. -/
theorem legalProgramsNeverRaiseIllegalOpcode : Obligations.LegalProgramsNeverRaiseIllegalOpcode := by
  intro s t hs h
  refine ⟨hs.after_step h, fun ht => ?_⟩
  obtain hf | hf := hs.step_fault h
  · exact hf.symm.trans ht
  · exact absurd ht hf

/-- Settles O27: the load establishes `LoadedInv`, and the run keeps it. -/
theorem loadedRunsNeverStopOrMeetIllegalOpcode : Obligations.LoadedRunsNeverStopOrMeetIllegalOpcode := by
  intro p queued lines hp hd k
  obtain ⟨t, ht, hinv, hlegal, hfault⟩ := (loadedInv_startRun hp hd).after_runSteps k
  exact ⟨t, ht, hinv, hlegal, hfault⟩

/-- Settles O34. -/
theorem inputArrivalIsSeenOnlyByAWaitingRead : Obligations.InputArrivalIsSeenOnlyByAWaitingRead :=
  fun _ _ v hs h => step_hostAppend v hs h

end Sys2Proof.Machine
end

section
/-! # The words written out in spec/95_test_vectors.md

Each of the words is the encoding of its instruction, or its opcode byte is none of the table's. -/

namespace Sys2Proof

/-- The word of an instruction decodes to it (R45): `decode_encode` for a word written out as a number. -/
theorem decode_eq_instr_of_encode_eq {i : Instr} {w : InstrWord} (h : encode i = w) : decode w = .instr i :=
  h ▸ decode_encode i

/-- A word whose opcode byte is not in the table is illegal by that byte (R46). -/
theorem decode_eq_illegal_of_opcode {w : InstrWord} {n : Nat} (hw : (opcodeField w).toNat = n)
    (hn : n ∉ legalOpcodes) : decode w = .illegal n := by
  rw [decode, hw, decodePair_of_not_mem hn]

end Sys2Proof

namespace Sys2Proof.Machine

/-- Settles O6: eight of the words are the encodings of their instructions, two have an opcode outside the table. -/
theorem specWordsDecodeAsWritten : Obligations.SpecWordsDecodeAsWritten :=
  ⟨decode_eq_instr_of_encode_eq rfl, decode_eq_instr_of_encode_eq rfl, decode_eq_instr_of_encode_eq rfl,
    decode_eq_instr_of_encode_eq rfl, decode_eq_instr_of_encode_eq rfl, decode_eq_instr_of_encode_eq rfl,
    decode_eq_instr_of_encode_eq rfl, decode_eq_instr_of_encode_eq rfl,
    decode_eq_illegal_of_opcode rfl (by decide), decode_eq_illegal_of_opcode rfl (by decide)⟩

end Sys2Proof.Machine
end
